-- ==== Sys2Proof/Word.lean ====
section
/-! DEFINITION. The two widths of the engine (00_scope R13): a byte is 8 bits, every register of the
window, every `mem` address operand and every length operand is 32 bits. Everything that is not
one of these is a number, a truth value or a list (00_scope R14, R16). -/

namespace Sys2Proof

/-- A byte, 8 bits (00_scope R13). -/
abbrev Byte := BitVec 8

/-- A register value, 32 bits (00_scope R13). -/
abbrev Word := BitVec 32

end Sys2Proof
end

