-- ==== Sys2Proof/Config.lean ====
section
/-! DEFINITION. The parameters an instance of the engine fixes (00_scope R4, R10 to R12). They are a
plain record that State carries and no step writes, so every statement over all states is a
statement over every instance. The spec leaves no VALUE of an instruction open, so there is no
free value here. -/

namespace Sys2Proof

/-- The implementation parameters (00_scope R10 to R12). Their bounds are `Config.wf`. -/
structure Config where
  /-- MEM_SIZE, the size in bytes of `mem` (00_scope R10). -/
  memSize : Nat
  /-- PAYLOAD_CAP, the capacity in bytes of the payload RAM (00_scope R11). -/
  payloadCap : Nat
  /-- ENGINE_BASE, the bus address of the register window (00_scope R12). No rule depends on it. -/
  engineBase : Nat
  deriving DecidableEq, Repr

/-- DESIGN CHOICE (log entry 1), unsafe: the instance `State.reset` describes, MEM_SIZE = 256 and
PAYLOAD_CAP = 200 as the test vectors of 95_test_vectors use, ENGINE_BASE = 0. -/
def Config.vectors : Config where
  memSize := 256
  payloadCap := 200
  engineBase := 0

end Sys2Proof
end

