-- ==== Sys2Proof/Machine/HostAction.lean ====
section
/-! DEFINITION. What the host can do to the engine (20_memory R66), as data: the actions State holds in
its list of pending host actions, and the values the host's reads return. -/

namespace Sys2Proof.Machine

/-- The width of a host access to the register window. Only `word` has a meaning (20_memory R53). R53
names 8 and 16 bits as the other widths; that an access of any other width, a 64-bit one for
example, is a host action too, and is refused as they are: DESIGN CHOICE (log entry 11), safe. -/
inductive AccessWidth where
  /-- 8 bits. -/
  | byte
  /-- 16 bits. -/
  | half
  /-- 32 bits. -/
  | word
  /-- Any width but 8, 16 and 32 bits, among them every width over 32. -/
  | other
  deriving DecidableEq, Repr

/-- One host action (20_memory R66). Register accesses name a byte offset in the window
(00_scope R12); `mem` is accessed by the byte, between commands. -/
inductive HostAction where
  /-- A write of `value` at offset `off` of the register window. Of a width other than `word` the value
  is never looked at, so it need not fit that width. -/
  | regWrite (width : AccessWidth) (off : Nat) (value : Word)
  /-- A read at offset `off` of the register window. -/
  | regRead (width : AccessWidth) (off : Nat)
  /-- A write of one byte of `mem`. -/
  | memWrite (addr : Nat) (value : Byte)
  /-- A read of one byte of `mem`. -/
  | memRead (addr : Nat)
  /-- The platform asserts the reset input (70_reset_and_hazards R141). -/
  | assertReset
  deriving DecidableEq, Repr

/-- What a host read returned. -/
inductive Reply where
  /-- The value of a register (10_state R25). -/
  | reg (value : Word)
  /-- A byte of `mem` (20_memory R66). -/
  | mem (value : Byte)
  deriving DecidableEq, Repr

/-- A register access with a meaning: 32 bits wide, at a multiple of 4 from 0x00 to 0x3C
(20_memory R53). -/
def registerAccessOk (width : AccessWidth) (off : Nat) : Bool :=
  decide (width = .word) && decide (off % 4 = 0) && decide (off ≤ 0x3C)

end Sys2Proof.Machine
end

