-- ==== Sys2Proof/Machine/State.lean ====
section
/-! DEFINITION. The state of the engine (10_state R21), its parameters, and the host's side of the
interface (20_memory R66, R67), as plain data; the reasons a step can stop; and the state after
reset (70_reset_and_hazards R141). -/

namespace Sys2Proof.Machine

/-- The eight error kinds (60_exceptions R124). ERR = 0 is the absence of one. Exactly these exist
(93_implementation_defined U20). -/
inductive ErrKind where
  /-- 1, 'non-letter byte in a type tag'. -/
  | invalidCharacter
  /-- 2, 'type tag string not exactly 4 bytes'. -/
  | wrongLength
  /-- 3, 'buffer under 12 bytes'. -/
  | tooShort
  /-- 4, a declared length over the bytes available, whole-buffer mode. -/
  | lengthMismatch
  /-- 5, a declared length over the bytes available, streaming mode. -/
  | lengthExceedsBuffer
  /-- 6, 'unconsumed bytes after a whole-buffer parse'. -/
  | trailingData
  /-- 7, 'checksum failure'. -/
  | crcMismatch
  /-- 8, 'payload not valid text when text access is requested'. -/
  | invalidEncoding
  deriving DecidableEq, Repr

/-- The five engine fault codes (60_exceptions R128). FAULT_CODE = 0 is the absence of one. Exactly
these exist (93_implementation_defined U20). -/
inductive FaultCode where
  /-- 1, an illegal command word. -/
  | illegalCommand
  /-- 2, a range not inside `mem`. -/
  | memRange
  /-- 3, the command needs CT and CT_PRESENT = 0. -/
  | noType
  /-- 4, the command needs the chunk register and CH_PRESENT = 0. -/
  | noChunk
  /-- 5, a payload longer than PAYLOAD_CAP would be stored. -/
  | capacity
  deriving DecidableEq, Repr

/-- Why a step stops with a fault. An ENGINE fault is no such stop: it is state, written by
`State.raiseFault` (60_exceptions R129). -/
inductive Fault where
  /-- Raised by a step whose host action reads or writes a byte of `mem` at an address that does not
  exist, at or above MEM_SIZE (20_memory R44, R45). DESIGN CHOICE (log entry 7), safe: the model
  stops. -/
  | noSuchMemByte (addr : Nat)
  deriving DecidableEq, Repr

/-- Why a step has no meaning. -/
inductive Refusal where
  /-- Answered by `exec` for a command whose meaning is not written. Safe: the model stops. -/
  | notModelled (mnemonic : String)
  /-- Answered by every step from a state that carries the mark of a register access with no defined
  effect (20_memory R53). DESIGN CHOICE (log entry 6), safe: the model stops. -/
  | undefinedAccess
  deriving DecidableEq, Repr

/-- The bytes of `mem` as a list of (address, byte) pairs in one canonical form (`Memory.wf`). -/
abbrev Memory := List Host.Cell

/-- The state (10_state R21), with the parameters (00_scope R10 to R12), the mark of 20_memory R53
and the host's side (20_memory R66, R67). -/
structure State where
  /-- CMD, the command word last accepted (10_state R26). -/
  cmd : Word
  /-- ARG0, an operand register (10_state R27). -/
  arg0 : Word
  /-- ARG1, an operand register (10_state R27). -/
  arg1 : Word
  /-- ARG2, an operand register (10_state R27). -/
  arg2 : Word
  /-- RESULT (10_state R28). -/
  result : Word
  /-- ERR, the error kind of the last executed command (10_state R29; log entry 9). -/
  err : Option ErrKind
  /-- ERR_INFO0 (10_state R30). -/
  errInfo0 : Word
  /-- ERR_INFO1 (10_state R30). -/
  errInfo1 : Word
  /-- FAULT_CODE, sticky (10_state R31; log entry 9). -/
  faultCode : Option FaultCode
  /-- FAULT_OPCODE (10_state R31). -/
  faultOpcode : Byte
  /-- FAULT_INFO (10_state R32). -/
  faultInfo : Word
  /-- CRC_ACC (10_state R33). -/
  crcAcc : Word
  /-- CT, the chunk-type register (10_state R35). -/
  ct : Word
  /-- CT_PRESENT (10_state R35). -/
  ctPresent : Bool
  /-- CH_TYPE, the chunk register's type (10_state R38). -/
  chType : Word
  /-- CH_LEN, the chunk register's payload length (10_state R38). -/
  chLen : Word
  /-- CH_PRESENT (10_state R38). -/
  chPresent : Bool
  /-- PL, the chunk register's payload (10_state R39). -/
  pl : List Byte
  /-- `mem` (20_memory R45). -/
  mem : Memory
  /-- The parameters of the instance; no step writes them (00_scope R10 to R12). -/
  cfg : Config
  /-- The host actions still to come, next first (20_memory R67). DESIGN CHOICE (log entry 2), safe. -/
  pending : List HostAction
  /-- What the host's reads returned, newest first (10_state R25). DESIGN CHOICE (log entry 5), safe. -/
  replies : List Reply
  /-- The mark a refused register access leaves to the end of the run (20_memory R53; log entry 6). -/
  refusedMark : Bool
  deriving DecidableEq, Repr

/-- The engine right after reset, for given parameters and a given `mem` (70_reset_and_hazards R141).
PL may be [] there (10_state R39). DESIGN CHOICE (log entry 4), safe: it cannot be observed. -/
def State.resetWith (c : Config) (m : Memory) : State where
  cmd := 0x00000000
  arg0 := 0x00000000
  arg1 := 0x00000000
  arg2 := 0x00000000
  result := 0x00000000
  err := none
  errInfo0 := 0x00000000
  errInfo1 := 0x00000000
  faultCode := none
  faultOpcode := 0x00
  faultInfo := 0x00000000
  crcAcc := 0xFFFFFFFF
  ct := 0x00000000
  ctPresent := false
  chType := 0x00000000
  chLen := 0x00000000
  chPresent := false
  pl := []
  mem := m
  cfg := c
  pending := []
  replies := []
  refusedMark := false

/-- The machine right after reset (70_reset_and_hazards R141): the instance of `Config.vectors`, with
no byte of `mem` listed and no host action pending (log entries 1, 2, 3 and 5). -/
def State.reset : State := State.resetWith Config.vectors []

end Sys2Proof.Machine
end

