-- ==== Sys2Proof/Machine/Flags.lean ====
section
/-! DEFINITION. The engine has no arithmetic flags (10_state R41). This file holds its status values:
the codes of the error kinds and of the faults, the views STATUS and FAULT, and a truth value as a
RESULT. -/

namespace Sys2Proof.Machine

/-- The code of an error kind in STATUS.ERR (60_exceptions R124). -/
def ErrKind.code : ErrKind → BitVec 4
  | .invalidCharacter => 1
  | .wrongLength => 2
  | .tooShort => 3
  | .lengthMismatch => 4
  | .lengthExceedsBuffer => 5
  | .trailingData => 6
  | .crcMismatch => 7
  | .invalidEncoding => 8

/-- The code of a fault in FAULT[7:0] (60_exceptions R128). -/
def FaultCode.code : FaultCode → Byte
  | .illegalCommand => 1
  | .memRange => 2
  | .noType => 3
  | .noChunk => 4
  | .capacity => 5

/-- ERR, STATUS[3:0]: 0 for none (10_state R29). -/
def State.errCode (s : State) : BitVec 4 :=
  match s.err with
  | none => 0
  | some k => k.code

/-- FAULT_CODE, FAULT[7:0]: 0 for none (10_state R31). -/
def State.faultCodeByte (s : State) : Byte :=
  match s.faultCode with
  | none => 0
  | some f => f.code

/-- FAULTED, the view `FAULT_CODE ≠ 0` (10_state R29, R41). -/
def State.faulted (s : State) : Bool := s.faultCode.isSome

/-- A truth value as a register value (00_scope R14, 42_chunk_type R91). -/
def truthWord (b : Bool) : Word := if b then 1 else 0

/-- STATUS, a view with no storage of its own (10_state R29). -/
def State.status (s : State) : Word :=
  s.errCode.setWidth 32 ||| (truthWord s.ctPresent <<< 8) ||| (truthWord s.chPresent <<< 9) |||
    (truthWord s.faulted <<< 16)

/-- FAULT, FAULT_CODE in bits 7:0 and FAULT_OPCODE in bits 15:8 (10_state R31). -/
def State.faultWord (s : State) : Word :=
  s.faultCodeByte.setWidth 32 ||| (s.faultOpcode.setWidth 32 <<< 8)

end Sys2Proof.Machine
end

