-- ==== Sys2Proof/Syntax.lean ====
section
/-! DEFINITION. The commands of the engine (30_encoding R71): one constructor per row of the opcode
table, in the table's order. A command's other operands are in ARG0, ARG1 and ARG2
(30_encoding R68, R73); the one operand a command word itself carries is IMM8 of
CRC_UPDATE_BYTE (30_encoding R69). -/

namespace Sys2Proof

/-- One command (30_encoding R71). -/
inductive Instr where
  /-- CRC_INIT, 0x01 (41_crc R85). -/
  | crcInit
  /-- CRC_UPDATE_BYTE, 0x02, with its byte operand IMM8 (41_crc R86). -/
  | crcUpdateByte (imm : Byte)
  /-- CRC_UPDATE, 0x03 (41_crc R87). -/
  | crcUpdate
  /-- CRC_GET, 0x04 (41_crc R88). -/
  | crcGet
  /-- CT_NEW, 0x10 (42_chunk_type R94). -/
  | ctNew
  /-- CT_FROM_STRING, 0x11 (42_chunk_type R95). -/
  | ctFromString
  /-- CT_BYTES, 0x12 (42_chunk_type R96). -/
  | ctBytes
  /-- CT_IS_CRITICAL, 0x13 (42_chunk_type R97). -/
  | ctIsCritical
  /-- CT_IS_PUBLIC, 0x14 (42_chunk_type R98). -/
  | ctIsPublic
  /-- CT_IS_RESERVED_BIT_VALID, 0x15 (42_chunk_type R99). -/
  | ctIsReservedBitValid
  /-- CT_IS_SAFE_TO_COPY, 0x16 (42_chunk_type R100). -/
  | ctIsSafeToCopy
  /-- CT_IS_VALID, 0x17 (42_chunk_type R101). -/
  | ctIsValid
  /-- CT_TO_STRING, 0x18 (42_chunk_type R102). -/
  | ctToString
  /-- CT_EQ, 0x19 (42_chunk_type R103). -/
  | ctEq
  /-- CHUNK_NEW, 0x20 (43_chunk_codec R112). -/
  | chunkNew
  /-- CHUNK_LENGTH, 0x21 (43_chunk_codec R113). -/
  | chunkLength
  /-- CHUNK_CRC, 0x22 (43_chunk_codec R114). -/
  | chunkCrc
  /-- CHUNK_DATA_AS_TEXT, 0x23 (43_chunk_codec R115). -/
  | chunkDataAsText
  /-- CHUNK_SERIALIZE, 0x24 (43_chunk_codec R116). -/
  | chunkSerialize
  /-- CHUNK_PARSE, 0x25 (43_chunk_codec R117). -/
  | chunkParse
  /-- CHUNK_PARSE_NEXT, 0x26 (43_chunk_codec R118). -/
  | chunkParseNext
  /-- CHUNK_DATA, 0x27 (43_chunk_codec R119). -/
  | chunkData
  /-- CHUNK_TYPE, 0x28 (43_chunk_codec R120). -/
  | chunkType
  deriving DecidableEq, Repr

end Sys2Proof
end

