-- ==== Sys2Proof/Decode.lean ====
section
/-! DEFINITION. The command word CMDW (30_encoding R68 to R72): its fields, the opcode map, the decoder,
total on every word and rejecting by name, and after it the encoder. No byte order enters: a
command word is a 32-bit register value, never fetched from memory (20_memory R50). -/

namespace Sys2Proof

/-- OPCODE, `w[7:0]` (30_encoding R68). -/
def CommandWord.opcode (w : Word) : Byte := w.extractLsb' 0 8

/-- IMM8, `w[15:8]` (30_encoding R68, R69). -/
def CommandWord.imm (w : Word) : Byte := w.extractLsb' 8 8

/-- RSV, `w[31:16]` (30_encoding R68). -/
def CommandWord.reserved (w : Word) : BitVec 16 := w.extractLsb' 16 16

/-- Why a word is illegal (30_encoding R72, one constructor a bullet). Every one of them raises the
same engine fault, ILLEGAL_COMMAND, with the word as its context. -/
inductive IllegalWord where
  /-- `w[7:0]` is no opcode of the map. -/
  | unknownOpcode
  /-- `w[31:16] ≠ 0`. -/
  | reservedNotZero
  /-- `w[15:8] ≠ 0` and the opcode is not 0x02. -/
  | immediateNotZero
  deriving DecidableEq, Repr

/-- The opcode map of 30_encoding R71, less CRC_UPDATE_BYTE (0x02), the one command that reads IMM8. -/
def opcodeMap : List (Byte × Instr) :=
  [(0x01, .crcInit), (0x03, .crcUpdate), (0x04, .crcGet),
   (0x10, .ctNew), (0x11, .ctFromString), (0x12, .ctBytes), (0x13, .ctIsCritical),
   (0x14, .ctIsPublic), (0x15, .ctIsReservedBitValid), (0x16, .ctIsSafeToCopy),
   (0x17, .ctIsValid), (0x18, .ctToString), (0x19, .ctEq),
   (0x20, .chunkNew), (0x21, .chunkLength), (0x22, .chunkCrc), (0x23, .chunkDataAsText),
   (0x24, .chunkSerialize), (0x25, .chunkParse), (0x26, .chunkParseNext),
   (0x27, .chunkData), (0x28, .chunkType)]

/-- The command of an opcode with a zero IMM8, if the map has one (30_encoding R71). -/
def commandOf (op : Byte) : Option Instr := opcodeMap.lookup op

/-- Decode a command word (30_encoding R71, R72). -/
def decode (w : Word) : Except IllegalWord Instr :=
  if CommandWord.reserved w = 0 then
    if CommandWord.opcode w = 0x02 then .ok (.crcUpdateByte (CommandWord.imm w))
    else
      match commandOf (CommandWord.opcode w) with
      | none => .error .unknownOpcode
      | some i => if CommandWord.imm w = 0 then .ok i else .error .immediateNotZero
  else .error .reservedNotZero

/-- The opcode of a command (30_encoding R71); also the value a fault of it records in FAULT_OPCODE
(60_exceptions R129). -/
def Instr.opcode : Instr → Byte
  | .crcInit => 0x01
  | .crcUpdateByte _ => 0x02
  | .crcUpdate => 0x03
  | .crcGet => 0x04
  | .ctNew => 0x10
  | .ctFromString => 0x11
  | .ctBytes => 0x12
  | .ctIsCritical => 0x13
  | .ctIsPublic => 0x14
  | .ctIsReservedBitValid => 0x15
  | .ctIsSafeToCopy => 0x16
  | .ctIsValid => 0x17
  | .ctToString => 0x18
  | .ctEq => 0x19
  | .chunkNew => 0x20
  | .chunkLength => 0x21
  | .chunkCrc => 0x22
  | .chunkDataAsText => 0x23
  | .chunkSerialize => 0x24
  | .chunkParse => 0x25
  | .chunkParseNext => 0x26
  | .chunkData => 0x27
  | .chunkType => 0x28

/-- The IMM8 a command carries: its byte operand for CRC_UPDATE_BYTE, 0 for every other
(30_encoding R69). -/
def Instr.imm8 : Instr → Byte
  | .crcUpdateByte imm => imm
  | _ => 0

/-- The command word of a command, RSV = 0 (30_encoding R68, R71, R76). -/
def encode (i : Instr) : Word :=
  i.opcode.setWidth 32 ||| (i.imm8.setWidth 32 <<< 8)

/-- The instruction the decoder reads from an instruction whose bits are `w`, bit 0 the least
significant bit of the command word; bits from `nbits` up are 0. A command is one 32-bit word
(30_encoding R70). -/
def decodeTableWord (nbits w : Nat) : Option Instr :=
  match decode (BitVec.ofNat 32 (w % 2 ^ nbits)) with
  | .ok i => some i
  | .error _ => none

end Sys2Proof
end

