-- ==== Sys2Proof/Machine/Ops.lean ====
section
/-! DEFINITION. The named operations over memory and registers: one byte and a range of `mem`
(20_memory R45 to R48), the three ways a command ends (60_exceptions R125, R126, R129), and the
writes to CRC_ACC, CT and the chunk register. -/

namespace Sys2Proof.Machine

/-! ## Memory -/

/-- What an address that is not listed reads as. DESIGN CHOICE (log entry 3), unsafe: 0x00; the spec leaves
the contents of `mem` to the platform (70_reset_and_hazards R141). -/
def Memory.unlisted : Byte := 0x00

/-- The byte of `mem` at an address (20_memory R45). -/
def Memory.read : Memory → Nat → Byte
  | [], _ => Memory.unlisted
  | (k, v) :: rest, a => if k = a then v else Memory.read rest a

/-- `mem[a] <- b` (20_memory R48), keeping the canonical form. -/
def Memory.write : Memory → Nat → Byte → Memory
  | [], a, b => if b = Memory.unlisted then [] else [(a, b)]
  | (k, v) :: rest, a, b =>
    if k < a then (k, v) :: Memory.write rest a b
    else if k = a then (if b = Memory.unlisted then rest else (a, b) :: rest)
    else if b = Memory.unlisted then (k, v) :: rest
    else (a, b) :: (k, v) :: rest

/-- The canonical form: addresses strictly rising, and no entry equal to what an unlisted address
reads as. -/
abbrev Memory.wf (m : Memory) : Prop :=
  m.Pairwise (fun c d => c.1 < d.1) ∧ ∀ c ∈ m, c.2 ≠ Memory.unlisted

/-- Every listed address is an address of a memory of `n` bytes (20_memory R45). -/
abbrev Memory.inside (n : Nat) (m : Memory) : Prop := ∀ c ∈ m, c.1 < n

/-- `MemRead(a, n)` (20_memory R47). -/
def Memory.readBytes (m : Memory) (a : Nat) : Nat → List Byte
  | 0 => []
  | n + 1 => m.read a :: Memory.readBytes m (a + 1) n

/-- `MemWrite(a, len(s), s)` (20_memory R48). -/
def Memory.writeBytes (m : Memory) (a : Nat) : List Byte → Memory
  | [] => m
  | b :: bs => Memory.writeBytes (m.write a b) (a + 1) bs

/-- `RangeOK(a, n)`, in exact arithmetic (20_memory R46). -/
def rangeOk (c : Config) (a n : Nat) : Bool := decide (a + n ≤ c.memSize)

/-! ## How a command ends -/

/-- `complete(v)` (60_exceptions R126). -/
def State.complete (v : Word) (s : State) : State :=
  { s with err := none, errInfo0 := 0, errInfo1 := 0, result := v }

/-- `raise Error(kind, i0, i1)` (60_exceptions R125). -/
def State.raiseError (kind : ErrKind) (i0 i1 : Word) (s : State) : State :=
  { s with err := some kind, errInfo0 := i0, errInfo1 := i1, result := 0 }

/-- `raise Fault(code, info)` during a command whose `w[7:0]` is `op` (60_exceptions R129): the one
operation that takes an engine fault. There is no return from one but reset (60_exceptions
R134): `State.engineReset`. -/
def State.raiseFault (op : Byte) (code : FaultCode) (info : Word) (s : State) : State :=
  { s with faultCode := some code, faultOpcode := op, faultInfo := info }

/-- The engine's reset input (70_reset_and_hazards R141): every register at its reset value, `mem`
unchanged. The parameters, the host's side and the mark of 20_memory R53 (log entry 6) are not the
engine's. -/
def State.engineReset (s : State) : State :=
  { State.resetWith s.cfg s.mem with
    pending := s.pending, replies := s.replies, refusedMark := s.refusedMark }

/-! ## Writes a command makes before `complete` -/

/-- `CRC_ACC <- v` (10_state R33). -/
def State.putCrcAcc (v : Word) (s : State) : State := { s with crcAcc := v }

/-- `CT <- v; CT_PRESENT <- 1` (10_state R35). -/
def State.putType (v : Word) (s : State) : State := { s with ct := v, ctPresent := true }

/-- The chunk register's four parts, written together (10_state R38). -/
def State.putChunk (ty len : Word) (data : List Byte) (s : State) : State :=
  { s with chType := ty, chLen := len, pl := data, chPresent := true }

/-- `MemWrite(a, len(bytes), bytes)` on `mem` (20_memory R48). -/
def State.putBytes (a : Nat) (bytes : List Byte) (s : State) : State :=
  { s with mem := s.mem.writeBytes a bytes }

/-- `ARG0 <- a; ARG1 <- n`, the remainder CHUNK_PARSE_NEXT returns (43_chunk_codec R118). -/
def State.putRemainder (a n : Word) (s : State) : State := { s with arg0 := a, arg1 := n }

/-! ## The host's side -/

/-- A host read returns a value; the engine does not change (10_state R25). -/
def State.reply (r : Reply) (s : State) : State := { s with replies := r :: s.replies }

/-- The mark of a refused register access (20_memory R53). -/
def State.markRefused (s : State) : State := { s with refusedMark := true }

end Sys2Proof.Machine
end

