-- ==== Sys2Proof/Machine/Operands.lean ====
section
/-! DEFINITION. Every operand form (30_encoding R73): packed 4-byte values, big-endian words, a source
range [ARG0, ARG0 + ARG1) and a destination range at ARG2; what each command needs; and the stages
of dispatch that come before a command's own rule (30_encoding R74, R75). -/

namespace Sys2Proof.Machine

/-- `be32(s)` of four bytes (20_memory R49). No rule reads another length; it gives 0 there. -/
def be32 : List Byte → Word
  | [b0, b1, b2, b3] =>
    (b0.setWidth 32 <<< 24) ||| (b1.setWidth 32 <<< 16) ||| (b2.setWidth 32 <<< 8) |||
      b3.setWidth 32
  | _ => 0

/-- `to_be32(v)` (20_memory R49). -/
def toBe32 (v : Word) : List Byte :=
  [v.extractLsb' 24 8, v.extractLsb' 16 8, v.extractLsb' 8 8, v.extractLsb' 0 8]

/-- `pack(b)`, a 4-byte sequence in a register, byte 0 in bits 31:24 (10_state R34). -/
def pack (b : List Byte) : Word := be32 b

/-- `unpack(w)` (10_state R34). -/
def unpack (w : Word) : List Byte := toBe32 w

/-- The start address of the source range, ARG0 (30_encoding R73). -/
def State.srcAddr (s : State) : Nat := s.arg0.toNat

/-- The length of the source range, ARG1 (30_encoding R73). -/
def State.srcLen (s : State) : Nat := s.arg1.toNat

/-- The start address of the destination range, ARG2 (30_encoding R73). -/
def State.dstAddr (s : State) : Nat := s.arg2.toNat

/-- The bytes of the source range (20_memory R47). -/
def State.srcBytes (s : State) : List Byte := s.mem.readBytes s.srcAddr s.srcLen

/-- `op ∈ NEEDS_CT` (30_encoding R74). -/
def needsType : Instr → Bool
  | .ctBytes | .ctIsCritical | .ctIsPublic | .ctIsReservedBitValid | .ctIsSafeToCopy
  | .ctIsValid | .ctToString | .ctEq | .chunkNew => true
  | .crcInit | .crcUpdateByte _ | .crcUpdate | .crcGet | .ctNew | .ctFromString | .chunkLength
  | .chunkCrc | .chunkDataAsText | .chunkSerialize | .chunkParse | .chunkParseNext | .chunkData
  | .chunkType => false

/-- `op ∈ NEEDS_CH` (30_encoding R74). -/
def needsChunk : Instr → Bool
  | .chunkLength | .chunkCrc | .chunkDataAsText | .chunkSerialize | .chunkData | .chunkType => true
  | .crcInit | .crcUpdateByte _ | .crcUpdate | .crcGet | .ctNew | .ctFromString | .ctBytes
  | .ctIsCritical | .ctIsPublic | .ctIsReservedBitValid | .ctIsSafeToCopy | .ctIsValid
  | .ctToString | .ctEq | .chunkNew | .chunkParse | .chunkParseNext => false

/-- `op ∈ SRC_OPS` (30_encoding R74). -/
def usesSource : Instr → Bool
  | .crcUpdate | .ctFromString | .chunkNew | .chunkParse | .chunkParseNext => true
  | .crcInit | .crcUpdateByte _ | .crcGet | .ctNew | .ctBytes | .ctIsCritical | .ctIsPublic
  | .ctIsReservedBitValid | .ctIsSafeToCopy | .ctIsValid | .ctToString | .ctEq | .chunkLength
  | .chunkCrc | .chunkDataAsText | .chunkSerialize | .chunkData | .chunkType => false

/-- `DstLen(op)` for `op ∈ DST_OPS`, in exact arithmetic; none for every other command
(30_encoding R73, R74). -/
def dstLen (s : State) : Instr → Option Nat
  | .ctToString => some 4
  | .chunkDataAsText | .chunkData => some s.chLen.toNat
  | .chunkSerialize => some (12 + s.chLen.toNat)
  | .crcInit | .crcUpdateByte _ | .crcUpdate | .crcGet | .ctNew | .ctFromString | .ctBytes
  | .ctIsCritical | .ctIsPublic | .ctIsReservedBitValid | .ctIsSafeToCopy | .ctIsValid | .ctEq
  | .chunkNew | .chunkLength | .chunkCrc | .chunkParse | .chunkParseNext | .chunkType => none

/-- The destination range is inside `mem`, for a command that has one (30_encoding R74). -/
def dstOk (i : Instr) (s : State) : Bool :=
  match dstLen s i with
  | none => true
  | some n => rangeOk s.cfg s.dstAddr n

/-- Stages 2 and 3 of dispatch, then the command's own rule `body` (30_encoding R74): the first check
that fails ends the command. -/
def dispatch (i : Instr) (s : State) (body : State) : State :=
  if needsType i && !s.ctPresent then s.raiseFault i.opcode .noType 0
  else if needsChunk i && !s.chPresent then s.raiseFault i.opcode .noChunk 0
  else if usesSource i && !rangeOk s.cfg s.srcAddr s.srcLen then
    s.raiseFault i.opcode .memRange s.arg0
  else if !dstOk i s then s.raiseFault i.opcode .memRange s.arg2
  else body

end Sys2Proof.Machine
end

