-- ==== Sys2Proof/Machine/ChunkType.lean ====
section
/-! DEFINITION. The Chunk Type unit: letters, validation and properties (42_chunk_type R89 to R93), and
the ten commands R94 to R103. -/

namespace Sys2Proof.Machine

/-! ## Letters, validation and properties -/

/-- `IsUpper(b)` (42_chunk_type R89). -/
def isUpper (b : Byte) : Bool := decide (0x41 ≤ b.toNat) && decide (b.toNat ≤ 0x5A)

/-- `IsLower(b)` (42_chunk_type R89). -/
def isLower (b : Byte) : Bool := decide (0x61 ≤ b.toNat) && decide (b.toNat ≤ 0x7A)

/-- `IsLetter(b)` (42_chunk_type R89). -/
def isLetter (b : Byte) : Bool := isUpper b || isLower b

/-- The first byte that is not a letter, with its index, counting from `i`. -/
def firstNonLetter (i : Nat) : List Byte → Option (Nat × Byte)
  | [] => none
  | b :: bs => if isLetter b then firstNonLetter (i + 1) bs else some (i, b)

/-- `Validate(b)`: none when it passes, else the index and the value of the first byte that is not a
letter (42_chunk_type R90). -/
def validate (b : List Byte) : Option (Nat × Byte) := firstNonLetter 0 b

/-- Byte `k` of a packed type (10_state R34). -/
def typeByte (w : Word) (k : Nat) : Byte := (unpack w).getD k 0

/-- The critical property (42_chunk_type R91). -/
def isCritical (w : Word) : Bool := isUpper (typeByte w 0)

/-- The public property (42_chunk_type R91). -/
def isPublic (w : Word) : Bool := isUpper (typeByte w 1)

/-- The reserved-bit-valid property (42_chunk_type R91). -/
def isReservedBitValid (w : Word) : Bool := isUpper (typeByte w 2)

/-- The safe-to-copy property, the one that is true for lowercase (42_chunk_type R91). -/
def isSafeToCopy (w : Word) : Bool := isLower (typeByte w 3)

/-- Overall validity (42_chunk_type R91). -/
def isValidType (w : Word) : Bool := isUpper (typeByte w 2)

/-- Validate four bytes and load them, packed, into CT: the common end of CT_NEW and CT_FROM_STRING
(42_chunk_type R90, R94, R95). -/
def constructType (b : List Byte) (packed : Word) (s : State) : State :=
  match validate b with
  | some (i, c) => s.raiseError .invalidCharacter (BitVec.ofNat 32 i) (c.setWidth 32)
  | none => (s.putType packed).complete packed

/-! ## Commands -/

/-- CT_NEW (42_chunk_type R94). -/
def execCtNew (s : State) : Host.Outcome State Fault Refusal :=
  .next (dispatch .ctNew s (constructType (unpack s.arg0) s.arg0 s))

/-- CT_FROM_STRING (42_chunk_type R95): a byte length other than 4 is WrongLength. -/
def execCtFromString (s : State) : Host.Outcome State Fault Refusal :=
  .next (dispatch .ctFromString s
    (if s.srcLen = 4 then
       constructType (s.mem.readBytes s.srcAddr 4) (pack (s.mem.readBytes s.srcAddr 4)) s
     else s.raiseError .wrongLength 4 s.arg1))

/-- CT_BYTES (42_chunk_type R96). -/
def execCtBytes (s : State) : Host.Outcome State Fault Refusal :=
  .next (dispatch .ctBytes s (s.complete s.ct))

/-- CT_IS_CRITICAL (42_chunk_type R97). -/
def execCtIsCritical (s : State) : Host.Outcome State Fault Refusal :=
  .next (dispatch .ctIsCritical s (s.complete (truthWord (isCritical s.ct))))

/-- CT_IS_PUBLIC (42_chunk_type R98). -/
def execCtIsPublic (s : State) : Host.Outcome State Fault Refusal :=
  .next (dispatch .ctIsPublic s (s.complete (truthWord (isPublic s.ct))))

/-- CT_IS_RESERVED_BIT_VALID (42_chunk_type R99). -/
def execCtIsReservedBitValid (s : State) : Host.Outcome State Fault Refusal :=
  .next (dispatch .ctIsReservedBitValid s (s.complete (truthWord (isReservedBitValid s.ct))))

/-- CT_IS_SAFE_TO_COPY (42_chunk_type R100). -/
def execCtIsSafeToCopy (s : State) : Host.Outcome State Fault Refusal :=
  .next (dispatch .ctIsSafeToCopy s (s.complete (truthWord (isSafeToCopy s.ct))))

/-- CT_IS_VALID (42_chunk_type R101). -/
def execCtIsValid (s : State) : Host.Outcome State Fault Refusal :=
  .next (dispatch .ctIsValid s (s.complete (truthWord (isValidType s.ct))))

/-- CT_TO_STRING (42_chunk_type R102). -/
def execCtToString (s : State) : Host.Outcome State Fault Refusal :=
  .next (dispatch .ctToString s ((s.putBytes s.dstAddr (unpack s.ct)).complete 4))

/-- CT_EQ (42_chunk_type R103): ARG0 is not validated. -/
def execCtEq (s : State) : Host.Outcome State Fault Refusal :=
  .next (dispatch .ctEq s (s.complete (truthWord (decide (s.ct = s.arg0)))))

end Sys2Proof.Machine
end

