-- ==== Sys2Proof/Machine/Crc.lean ====
section
/-! DEFINITION. The CRC Engine: the functions of 41_crc R78 to R83 and the four commands R85 to R88. -/

namespace Sys2Proof.Machine

/-! ## Functions -/

/-- One round of the bit-reversed polynomial division, polynomial 0xEDB88320 (41_crc R78). -/
def crcRound (v : Word) : Word :=
  if v.getLsbD 0 then (v >>> 1) ^^^ 0xEDB88320 else v >>> 1

/-- `k` rounds (41_crc R78). -/
def crcRounds : Nat → Word → Word
  | 0, v => v
  | k + 1, v => crcRounds k (crcRound v)

/-- `TableEntry(n)`, eight rounds from the byte as the seed (41_crc R78). -/
def tableEntry (n : Byte) : Word := crcRounds 8 (n.setWidth 32)

/-- `T[n]`, entry `n` of the CRC table ROM (10_state R42): a constant, the value 41_crc R78 computes. -/
def crcTable (n : Byte) : Word := tableEntry n

/-- `CrcStep(acc, b)` (41_crc R79). -/
def crcStep (acc : Word) (b : Byte) : Word :=
  crcTable (((acc ^^^ b.setWidth 32) &&& 0xFF).setWidth 8) ^^^ (acc >>> 8)

/-- `CrcFold(acc, s)` (41_crc R80). -/
def crcFold (acc : Word) : List Byte → Word
  | [] => acc
  | b :: s => crcFold (crcStep acc b) s

/-- `Crc32(s)` (41_crc R81). -/
def crc32 (s : List Byte) : Word := ~~~ crcFold 0xFFFFFFFF s

/-- `CrcStepBitwise(acc, b)`, the step without the table (41_crc R83). -/
def crcStepBitwise (acc : Word) (b : Byte) : Word := crcRounds 8 (acc ^^^ b.setWidth 32)

/-! ## Commands -/

/-- CRC_INIT (41_crc R85). -/
def execCrcInit (s : State) : Host.Outcome State Fault Refusal :=
  .next (dispatch .crcInit s ((s.putCrcAcc 0xFFFFFFFF).complete 0))

/-- CRC_UPDATE_BYTE (41_crc R86). -/
def execCrcUpdateByte (imm : Byte) (s : State) : Host.Outcome State Fault Refusal :=
  .next (dispatch (.crcUpdateByte imm) s ((s.putCrcAcc (crcStep s.crcAcc imm)).complete 0))

/-- CRC_UPDATE (41_crc R87). -/
def execCrcUpdate (s : State) : Host.Outcome State Fault Refusal :=
  .next (dispatch .crcUpdate s ((s.putCrcAcc (crcFold s.crcAcc s.srcBytes)).complete 0))

/-- CRC_GET (41_crc R88). -/
def execCrcGet (s : State) : Host.Outcome State Fault Refusal :=
  .next (dispatch .crcGet s (s.complete (~~~ s.crcAcc)))

end Sys2Proof.Machine
end

