-- ==== Sys2Proof/Machine/Text.lean ====
section
/-! DEFINITION. Payload text validity (43_chunk_codec R108, R109): the table of well-formed UTF-8 byte
sequences and the scan that gives the length of the longest well-formed prefix. -/

namespace Sys2Proof.Machine

/-- A range of byte values, both ends included. -/
structure ByteRange where
  /-- The least value. -/
  lo : Byte
  /-- The greatest value. -/
  hi : Byte
  deriving DecidableEq, Repr

/-- A byte is in a range. -/
def ByteRange.holds (r : ByteRange) (b : Byte) : Bool :=
  decide (r.lo.toNat ≤ b.toNat) && decide (b.toNat ≤ r.hi.toNat)

/-- One row of the table of 43_chunk_codec R108: the range of byte 1 and those of the bytes after it. -/
structure Utf8Row where
  /-- The range of byte 1. -/
  first : ByteRange
  /-- The ranges of byte 2, byte 3 and byte 4, as many as the row has. -/
  rest : List ByteRange
  deriving DecidableEq, Repr

/-- The nine rows of the table (43_chunk_codec R108). -/
def utf8Rows : List Utf8Row :=
  [⟨⟨0x00, 0x7F⟩, []⟩,
   ⟨⟨0xC2, 0xDF⟩, [⟨0x80, 0xBF⟩]⟩,
   ⟨⟨0xE0, 0xE0⟩, [⟨0xA0, 0xBF⟩, ⟨0x80, 0xBF⟩]⟩,
   ⟨⟨0xE1, 0xEC⟩, [⟨0x80, 0xBF⟩, ⟨0x80, 0xBF⟩]⟩,
   ⟨⟨0xED, 0xED⟩, [⟨0x80, 0x9F⟩, ⟨0x80, 0xBF⟩]⟩,
   ⟨⟨0xEE, 0xEF⟩, [⟨0x80, 0xBF⟩, ⟨0x80, 0xBF⟩]⟩,
   ⟨⟨0xF0, 0xF0⟩, [⟨0x90, 0xBF⟩, ⟨0x80, 0xBF⟩, ⟨0x80, 0xBF⟩]⟩,
   ⟨⟨0xF1, 0xF3⟩, [⟨0x80, 0xBF⟩, ⟨0x80, 0xBF⟩, ⟨0x80, 0xBF⟩]⟩,
   ⟨⟨0xF4, 0xF4⟩, [⟨0x80, 0x8F⟩, ⟨0x80, 0xBF⟩, ⟨0x80, 0xBF⟩]⟩]

/-- The sequence begins with one byte in each of the ranges, in order. -/
def beginsWith : List ByteRange → List Byte → Bool
  | [], _ => true
  | _ :: _, [] => false
  | r :: rs, b :: bs => r.holds b && beginsWith rs bs

/-- The length of the well-formed sequence of one row that `s` begins with, none if it begins with
none (43_chunk_codec R109: at most one row's byte-1 range holds the first byte). -/
def utf8Head : List Byte → Option Nat
  | [] => none
  | b :: bs =>
    match utf8Rows.find? (fun r => r.first.holds b) with
    | none => none
    | some r => if beginsWith r.rest bs then some (1 + r.rest.length) else none

/-- The scan of 43_chunk_codec R109, for at most `fuel` sequences. -/
def utf8Scan : Nat → List Byte → Nat
  | 0, _ => 0
  | fuel + 1, s =>
    match utf8Head s with
    | none => 0
    | some k => k + utf8Scan fuel (s.drop k)

/-- `ValidUpTo(s)` (43_chunk_codec R108, R109): each sequence has at least one byte, so `len(s)` of
them are enough. -/
def validUpTo (s : List Byte) : Nat := utf8Scan s.length s

end Sys2Proof.Machine
end

