-- ==== Sys2Proof/Machine/ChunkCodec.lean ====
section
/-! DEFINITION. The Chunk Codec: the chunk CRC and the wire layout (43_chunk_codec R104, R105), the parse
procedure (R110, R111) and the nine commands R112 to R120. -/

namespace Sys2Proof.Machine

/-! ## Chunk CRC and wire layout -/

/-- `ChunkCrc(ty, data)`, in a private accumulator (43_chunk_codec R104). -/
def chunkCrc (ty data : List Byte) : Word := crc32 (ty ++ data)

/-- A record with length field `len` (43_chunk_codec R105, R116). -/
def recordBytes (len : Word) (ty data : List Byte) : List Byte :=
  toBe32 len ++ ty ++ data ++ toBe32 (chunkCrc ty data)

/-- `Serialize(ty, data)` (43_chunk_codec R105). -/
def serialize (ty data : List Byte) : List Byte :=
  recordBytes (BitVec.ofNat 32 data.length) ty data

/-! ## The parse procedure -/

/-- How `ParseRecord` ends (43_chunk_codec R110). -/
inductive ParseResult where
  /-- `raise Error(kind, i0, i1)`. -/
  | error (kind : ErrKind) (i0 i1 : Word)
  /-- `raise Fault(code, info)`. -/
  | fault (code : FaultCode) (info : Word)
  /-- Accept: the type's four bytes, the declared length and the payload. -/
  | accept (ty : List Byte) (len : Word) (data : List Byte)
  deriving DecidableEq, Repr

/-- `ParseRecord(a, n, streaming)` on a memory, for a payload capacity (43_chunk_codec R110). -/
def parseRecord (m : Memory) (cap a n : Nat) (streaming : Bool) : ParseResult :=
  if n < 12 then .error .tooShort 12 (BitVec.ofNat 32 n)
  else
    let len := be32 (m.readBytes a 4)
    let ty := m.readBytes (a + 4) 4
    match validate ty with
    | some (i, b) => .error .invalidCharacter (BitVec.ofNat 32 i) (b.setWidth 32)
    | none =>
      if n < 12 + len.toNat then
        .error (if streaming then .lengthExceedsBuffer else .lengthMismatch) len
          (BitVec.ofNat 32 (n - 12))
      else if cap < len.toNat then .fault .capacity len
      else
        let data := m.readBytes (a + 8) len.toNat
        let stored := be32 (m.readBytes (a + 8 + len.toNat) 4)
        let computed := chunkCrc ty data
        if computed = stored then .accept ty len data
        else .error .crcMismatch computed stored

/-- `ParseRecord(ARG0, ARG1, streaming)`. -/
def State.parse (s : State) (streaming : Bool) : ParseResult :=
  parseRecord s.mem s.cfg.payloadCap s.srcAddr s.srcLen streaming

/-! ## Commands -/

/-- CHUNK_NEW (43_chunk_codec R112): CT is copied, not moved. -/
def execChunkNew (s : State) : Host.Outcome State Fault Refusal :=
  .next (dispatch .chunkNew s
    (if s.cfg.payloadCap < s.srcLen then s.raiseFault Instr.chunkNew.opcode .capacity s.arg1
     else (s.putChunk s.ct s.arg1 s.srcBytes).complete s.arg1))

/-- CHUNK_LENGTH (43_chunk_codec R113). -/
def execChunkLength (s : State) : Host.Outcome State Fault Refusal :=
  .next (dispatch .chunkLength s (s.complete s.chLen))

/-- CHUNK_CRC (43_chunk_codec R114): CRC_ACC is neither read nor written. -/
def execChunkCrc (s : State) : Host.Outcome State Fault Refusal :=
  .next (dispatch .chunkCrc s (s.complete (chunkCrc (unpack s.chType) s.pl)))

/-- CHUNK_DATA_AS_TEXT (43_chunk_codec R115): `mem` is written only on success. -/
def execChunkDataAsText (s : State) : Host.Outcome State Fault Refusal :=
  .next (dispatch .chunkDataAsText s
    (if validUpTo s.pl < s.chLen.toNat then
       s.raiseError .invalidEncoding (BitVec.ofNat 32 (validUpTo s.pl))
         ((s.pl.getD (validUpTo s.pl) 0).setWidth 32)
     else (s.putBytes s.dstAddr s.pl).complete s.chLen))

/-- CHUNK_SERIALIZE (43_chunk_codec R116). -/
def execChunkSerialize (s : State) : Host.Outcome State Fault Refusal :=
  .next (dispatch .chunkSerialize s
    ((s.putBytes s.dstAddr (recordBytes s.chLen (unpack s.chType) s.pl)).complete
      (BitVec.ofNat 32 (12 + s.chLen.toNat))))

/-- CHUNK_PARSE (43_chunk_codec R117): the remainder is checked after the CRC (R111). -/
def execChunkParse (s : State) : Host.Outcome State Fault Refusal :=
  .next (dispatch .chunkParse s
    (match s.parse false with
     | .error kind i0 i1 => s.raiseError kind i0 i1
     | .fault code info => s.raiseFault Instr.chunkParse.opcode code info
     | .accept ty len data =>
       if 12 + len.toNat < s.srcLen then
         s.raiseError .trailingData (BitVec.ofNat 32 (12 + len.toNat))
           (BitVec.ofNat 32 (s.srcLen - 12 - len.toNat))
       else (s.putChunk (pack ty) len data).complete s.arg1))

/-- CHUNK_PARSE_NEXT (43_chunk_codec R118): ARG0 and ARG1 then name the remainder. -/
def execChunkParseNext (s : State) : Host.Outcome State Fault Refusal :=
  .next (dispatch .chunkParseNext s
    (match s.parse true with
     | .error kind i0 i1 => s.raiseError kind i0 i1
     | .fault code info => s.raiseFault Instr.chunkParseNext.opcode code info
     | .accept ty len data =>
       ((s.putChunk (pack ty) len data).putRemainder
          (BitVec.ofNat 32 (s.srcAddr + 12 + len.toNat))
          (BitVec.ofNat 32 (s.srcLen - (12 + len.toNat)))).complete
         (BitVec.ofNat 32 (12 + len.toNat))))

/-- CHUNK_DATA (43_chunk_codec R119). -/
def execChunkData (s : State) : Host.Outcome State Fault Refusal :=
  .next (dispatch .chunkData s ((s.putBytes s.dstAddr s.pl).complete s.chLen))

/-- CHUNK_TYPE (43_chunk_codec R120). -/
def execChunkType (s : State) : Host.Outcome State Fault Refusal :=
  .next (dispatch .chunkType s ((s.putType s.chType).complete s.chType))

end Sys2Proof.Machine
end

