-- ==== Sys2Proof/Machine/Dispatch.lean ====
section
/-! DEFINITION. One arm per command of 30_encoding R71. `exec i s` is stages 2 to 4 of the dispatch of
30_encoding R74 for the command `i` in the state `s`; stage 1 and the check of FAULT_CODE are
`State.commandWrite`. -/

namespace Sys2Proof.Machine

def exec (i : Instr) (s : State) : Host.Outcome State Fault Refusal :=
  match i with
  -- CRC Engine (41_crc)
  | .crcInit => Sys2Proof.Machine.execCrcInit s
  | .crcUpdateByte imm => Sys2Proof.Machine.execCrcUpdateByte imm s
  | .crcUpdate => Sys2Proof.Machine.execCrcUpdate s
  | .crcGet => Sys2Proof.Machine.execCrcGet s
  -- Chunk Type (42_chunk_type)
  | .ctNew => Sys2Proof.Machine.execCtNew s
  | .ctFromString => Sys2Proof.Machine.execCtFromString s
  | .ctBytes => Sys2Proof.Machine.execCtBytes s
  | .ctIsCritical => Sys2Proof.Machine.execCtIsCritical s
  | .ctIsPublic => Sys2Proof.Machine.execCtIsPublic s
  | .ctIsReservedBitValid => Sys2Proof.Machine.execCtIsReservedBitValid s
  | .ctIsSafeToCopy => Sys2Proof.Machine.execCtIsSafeToCopy s
  | .ctIsValid => Sys2Proof.Machine.execCtIsValid s
  | .ctToString => Sys2Proof.Machine.execCtToString s
  | .ctEq => Sys2Proof.Machine.execCtEq s
  -- Chunk Codec (43_chunk_codec)
  | .chunkNew => Sys2Proof.Machine.execChunkNew s
  | .chunkLength => Sys2Proof.Machine.execChunkLength s
  | .chunkCrc => Sys2Proof.Machine.execChunkCrc s
  | .chunkDataAsText => Sys2Proof.Machine.execChunkDataAsText s
  | .chunkSerialize => Sys2Proof.Machine.execChunkSerialize s
  | .chunkParse => Sys2Proof.Machine.execChunkParse s
  | .chunkParseNext => Sys2Proof.Machine.execChunkParseNext s
  | .chunkData => Sys2Proof.Machine.execChunkData s
  | .chunkType => Sys2Proof.Machine.execChunkType s

end Sys2Proof.Machine
end

