-- ==== Sys2Proof/Machine/Bus.lean ====
section
/-! DEFINITION. What each host action does (20_memory R66): the register window (10_state R24, R25), the
CMD write with its first dispatch stages (30_encoding R74), bytes of `mem`, and reset. -/

namespace Sys2Proof.Machine

/-- The value a host read of the register at a window offset returns (10_state R24, R25): reserved
offsets read 0. No rule reads another offset; it gives 0 there. -/
def State.readRegister (s : State) (off : Nat) : Word :=
  match off with
  | 0x00 => s.cmd
  | 0x04 => s.arg0
  | 0x08 => s.arg1
  | 0x0C => s.arg2
  | 0x10 => s.result
  | 0x14 => s.status
  | 0x18 => s.errInfo0
  | 0x1C => s.errInfo1
  | 0x20 => s.faultWord
  | 0x24 => s.faultInfo
  | 0x28 => s.crcAcc
  | 0x2C => s.ct
  | 0x30 => s.chType
  | 0x34 => s.chLen
  | _ => 0

/-- A host write of `w` to CMD (30_encoding R74): ignored when a fault is recorded (60_exceptions
R130), else CMD takes `w` and the word is executed, or raises ILLEGAL_COMMAND (30_encoding R72). -/
def State.commandWrite (w : Word) (s : State) : Host.Outcome State Fault Refusal :=
  if s.faulted then .next s
  else
    match decode w with
    | .ok i => exec i { s with cmd := w }
    | .error _ =>
      .next (({ s with cmd := w } : State).raiseFault (CommandWord.opcode w) .illegalCommand w)

/-- A host write of `v` to the register at a window offset (10_state R25): read-only and reserved
registers ignore it. -/
def State.writeRegister (off : Nat) (v : Word) (s : State) : Host.Outcome State Fault Refusal :=
  match off with
  | 0x00 => s.commandWrite v
  | 0x04 => .next { s with arg0 := v }
  | 0x08 => .next { s with arg1 := v }
  | 0x0C => .next { s with arg2 := v }
  | _ => .next s

/-- The effect of one host action (20_memory R66). -/
def State.takeAction (a : HostAction) (s : State) : Host.Outcome State Fault Refusal :=
  match a with
  | .regWrite width off v =>
    if registerAccessOk width off then s.writeRegister off v else .next s.markRefused
  | .regRead width off =>
    if registerAccessOk width off then .next (s.reply (.reg (s.readRegister off)))
    else .next s.markRefused
  | .memWrite addr b =>
    if addr < s.cfg.memSize then .next { s with mem := s.mem.write addr b }
    else .fault (.noSuchMemByte addr)
  | .memRead addr =>
    if addr < s.cfg.memSize then .next (s.reply (.mem (s.mem.read addr)))
    else .fault (.noSuchMemByte addr)
  | .assertReset => .next s.engineReset

/-- One step of a run (20_memory R67): the next host action, if the run carries no mark of a refused
access (20_memory R53). With no action left the engine is idle, every register held
(60_exceptions R140). -/
def State.stepRun (s : State) : Host.Outcome State Fault Refusal :=
  if s.refusedMark then .refused .undefinedAccess
  else
    match s.pending with
    | [] => .next s
    | a :: rest => ({ s with pending := rest } : State).takeAction a

/-- A host write of the command word `w` to CMD as the next host action, before those already
pending. -/
def State.pushCommand (w : Word) (s : State) : State :=
  { s with pending := .regWrite .word 0x00 w :: s.pending }

end Sys2Proof.Machine
end

