-- ==== Sys2Proof/Machine/Step.lean ====
section
/-! DEFINITION. One step of the machine, and where the next command comes from: the engine has no
program counter and fetches nothing (10_state R23); a command comes from the host's list of
actions as a write to CMD. DESIGN CHOICE (log entry 2), safe. -/

namespace Sys2Proof.Machine

/-- One step: one host action, which is one command when it is a write to CMD (70_reset_and_hazards
R154, 20_memory R67). -/
def step (s : State) : Host.Outcome State Fault Refusal := s.stepRun

/-- The state with a given command word as the next thing the host writes to CMD, its bits from
`nbits` up zero. -/
def State.withFetchWord (s : State) (nbits w : Nat) : State :=
  s.pushCommand (BitVec.ofNat 32 (w % 2 ^ nbits))

end Sys2Proof.Machine
end

