-- ==== Sys2Proof/Machine/Assembler.lean ====
section
/-! DEFINITION. The program syntax of the spec as data (30_encoding R76, R77; DESIGN CHOICE, log entry 10,
safe): the names of the registers,
the lines of a program, the host actions each line stands for, and a program given to the host. -/

namespace Sys2Proof.Machine

/-- The named registers of the window (10_state R24). -/
inductive RegName where
  | cmd | arg0 | arg1 | arg2 | result | status | errInfo0 | errInfo1 | fault | faultInfo
  | crcAcc | ct | chType | chLen
  deriving DecidableEq, Repr

/-- The window offset of a register (10_state R24). -/
def RegName.offset : RegName → Nat
  | .cmd => 0x00
  | .arg0 => 0x04
  | .arg1 => 0x08
  | .arg2 => 0x0C
  | .result => 0x10
  | .status => 0x14
  | .errInfo0 => 0x18
  | .errInfo1 => 0x1C
  | .fault => 0x20
  | .faultInfo => 0x24
  | .crcAcc => 0x28
  | .ct => 0x2C
  | .chType => 0x30
  | .chLen => 0x34

/-- One line of a program: `WR`, `RD`, a bare mnemonic (30_encoding R76), or a pseudo-instruction with
its operands (30_encoding R77). -/
inductive AsmLine where
  /-- `WR <reg>, <value>`. -/
  | wr (reg : RegName) (value : Word)
  /-- `RD <reg>`. -/
  | rd (reg : RegName)
  /-- `<MNEMONIC>`, and `CRC_UPDATE_BYTE <b>`. -/
  | command (i : Instr)
  /-- `CRC_UPDATE a, n`. -/
  | crcUpdate (a n : Word)
  /-- `CT_NEW t`. -/
  | ctNew (t : Word)
  /-- `CT_FROM_STRING a, n`. -/
  | ctFromString (a n : Word)
  /-- `CT_TO_STRING d`. -/
  | ctToString (d : Word)
  /-- `CT_EQ t`. -/
  | ctEq (t : Word)
  /-- `CHUNK_NEW a, n`. -/
  | chunkNew (a n : Word)
  /-- `CHUNK_DATA_AS_TEXT d`. -/
  | chunkDataAsText (d : Word)
  /-- `CHUNK_SERIALIZE d`. -/
  | chunkSerialize (d : Word)
  /-- `CHUNK_PARSE a, n`. -/
  | chunkParse (a n : Word)
  /-- `CHUNK_PARSE_NEXT a, n`. -/
  | chunkParseNext (a n : Word)
  /-- `CHUNK_DATA d`. -/
  | chunkData (d : Word)
  deriving DecidableEq, Repr

/-- A 32-bit write of a named register (30_encoding R76). -/
def RegName.write (r : RegName) (v : Word) : HostAction := .regWrite .word r.offset v

/-- `WR CMD, <word>` for a command (30_encoding R76). -/
def commandAction (i : Instr) : HostAction := RegName.cmd.write (encode i)

/-- A command with its source range: ARG0, ARG1, CMD (30_encoding R77). -/
def withSource (i : Instr) (a n : Word) : List HostAction :=
  [RegName.arg0.write a, RegName.arg1.write n, commandAction i]

/-- A command with its packed operand: ARG0, CMD (30_encoding R77). -/
def withPacked (i : Instr) (t : Word) : List HostAction :=
  [RegName.arg0.write t, commandAction i]

/-- A command with its destination: ARG2, CMD (30_encoding R77). -/
def withDestination (i : Instr) (d : Word) : List HostAction :=
  [RegName.arg2.write d, commandAction i]

/-- The host actions of a line (30_encoding R76, R77). -/
def AsmLine.expand : AsmLine → List HostAction
  | .wr reg value => [reg.write value]
  | .rd reg => [.regRead .word reg.offset]
  | .command i => [commandAction i]
  | .crcUpdate a n => withSource .crcUpdate a n
  | .ctNew t => withPacked .ctNew t
  | .ctFromString a n => withSource .ctFromString a n
  | .ctToString d => withDestination .ctToString d
  | .ctEq t => withPacked .ctEq t
  | .chunkNew a n => withSource .chunkNew a n
  | .chunkDataAsText d => withDestination .chunkDataAsText d
  | .chunkSerialize d => withDestination .chunkSerialize d
  | .chunkParse a n => withSource .chunkParse a n
  | .chunkParseNext a n => withSource .chunkParseNext a n
  | .chunkData d => withDestination .chunkData d

/-- The host actions of a program, in order. -/
def assemble (lines : List AsmLine) : List HostAction := lines.flatMap AsmLine.expand

/-- `MEM <addr>: <bytes>`: the start contents of `mem`, not an action (30_encoding R76). -/
def State.withStart (addr : Nat) (bytes : List Byte) (s : State) : State := s.putBytes addr bytes

/-- The state whose next host actions are those of a program (20_memory R67). -/
def State.withProgram (lines : List AsmLine) (s : State) : State :=
  { s with pending := assemble lines ++ s.pending }

end Sys2Proof.Machine
end

