-- ==== Sys2Proof/WellFormed.lean ====
section
/-! DEFINITION. What the spec calls legal: the parameters of an instance (00_scope R10, R11), a command
word (30_encoding R72) and a host action (20_memory R53, R66). A value of `Instr` itself is
always well formed: its one field, IMM8, is any byte (30_encoding R69). -/

namespace Sys2Proof

/-- 1 ≤ MEM_SIZE ≤ 2^32 − 1 (00_scope R10). -/
def Config.memSizeOk (c : Config) : Bool :=
  decide (1 ≤ c.memSize) && decide (c.memSize ≤ 2 ^ 32 - 1)

/-- PAYLOAD_CAP ≤ 2^32 − 13 (00_scope R11). -/
def Config.payloadCapOk (c : Config) : Bool :=
  decide (c.payloadCap ≤ 2 ^ 32 - 13)

/-- The parameters are in their ranges (00_scope R10, R11). -/
def Config.wf (c : Config) : Bool :=
  c.memSizeOk && c.payloadCapOk

/-- The low byte is an opcode of the map: it is none of 0x00, 0x05 to 0x0F, 0x1A to 0x1F and 0x29 to
0xFF (30_encoding R72). -/
def CommandWord.opcodeOk (w : Word) : Bool :=
  let op := w.toNat % 256
  (decide (0x01 ≤ op) && decide (op ≤ 0x04)) || (decide (0x10 ≤ op) && decide (op ≤ 0x19)) ||
    (decide (0x20 ≤ op) && decide (op ≤ 0x28))

/-- The reserved field `w[31:16]` is 0 (30_encoding R72). -/
def CommandWord.reservedOk (w : Word) : Bool :=
  decide (w.toNat / 2 ^ 16 = 0)

/-- The immediate field `w[15:8]` is 0, or the opcode is 0x02 (30_encoding R72). -/
def CommandWord.immediateOk (w : Word) : Bool :=
  decide (w.toNat / 2 ^ 8 % 256 = 0) || decide (w.toNat % 256 = 0x02)

/-- A command word that is not illegal (30_encoding R72). -/
def CommandWord.wf (w : Word) : Bool :=
  CommandWord.opcodeOk w && CommandWord.reservedOk w && CommandWord.immediateOk w

namespace Machine

/-- The host's duties of 20_memory R66, action by action: an aligned 32-bit register access, a byte
inside `mem`. -/
def HostAction.wf (c : Config) : HostAction → Bool
  | .regWrite width off _ => registerAccessOk width off
  | .regRead width off => registerAccessOk width off
  | .memWrite addr _ => decide (addr < c.memSize)
  | .memRead addr => decide (addr < c.memSize)
  | .assertReset => true

end Machine

end Sys2Proof
end

