-- ==== Sys2Proof/Safety.lean ====
section
/-! DEFINITION. The terms claims use: a safe end of a run, and the invariant of the engine, part by part. -/

namespace Sys2Proof.Machine

/-- The end of a run a claim may rest on: no fault recorded (60_exceptions R130) and no refused
register access (20_memory R53). -/
def State.safe (s : State) : Bool := s.faultCode.isNone && !s.refusedMark

/-- The four bytes of a packed type are letters (42_chunk_type R89). -/
abbrev LettersOnly (w : Word) : Prop := ∀ b ∈ unpack w, isLetter b = true

/-- The parameters are in their ranges (00_scope R10, R11). -/
abbrev State.ConfigInv (s : State) : Prop := s.cfg.wf = true

/-- `mem` is in canonical form and lists no address outside 0 to MEM_SIZE − 1 (20_memory R45). -/
abbrev State.MemInv (s : State) : Prop := s.mem.wf ∧ s.mem.inside s.cfg.memSize

/-- Whenever CT_PRESENT = 1, every byte of CT is a letter (10_state R36). -/
abbrev State.TypeInv (s : State) : Prop := s.ctPresent = true → LettersOnly s.ct

/-- Whenever CH_PRESENT = 1, CH_TYPE holds letters and PL is exactly CH_LEN ≤ PAYLOAD_CAP bytes
(10_state R39, 43_chunk_codec R106). -/
abbrev State.ChunkInv (s : State) : Prop :=
  s.chPresent = true →
    LettersOnly s.chType ∧ s.pl.length = s.chLen.toNat ∧ s.chLen.toNat ≤ s.cfg.payloadCap

/-- With ERR = 0 the context is 0 (10_state R30), with an error RESULT is 0 (60_exceptions R125). -/
abbrev State.ErrInv (s : State) : Prop :=
  (s.err = none → s.errInfo0 = 0 ∧ s.errInfo1 = 0) ∧ (s.err ≠ none → s.result = 0)

/-- With FAULT_CODE = 0 its context is 0: both are written only by a fault (10_state R31, R32). -/
abbrev State.FaultInv (s : State) : Prop :=
  s.faultCode = none → s.faultOpcode = 0 ∧ s.faultInfo = 0

/-- The invariant of the engine. -/
abbrev State.Inv (s : State) : Prop :=
  s.ConfigInv ∧ s.MemInv ∧ s.TypeInv ∧ s.ChunkInv ∧ s.ErrInv ∧ s.FaultInv

end Sys2Proof.Machine
end

