-- ==== Sys2Proof/Certificates/Slice0/Obligations.lean ====
section
/-! DEFINITION. The statements about the machine, each a `def Obligations.<Name> : Prop`, after the terms
they are written in. A term of `Sys2Proof.Claims` says in numbers and lists what a rule of the spec
says; where it can, it says so without the machine's own operand functions. -/

namespace Sys2Proof.Claims

open Sys2Proof.Machine

/-! ## Terms: how a command ends -/

/-- 60_exceptions R126: the state `s` with the registers of a successful end, RESULT = `v`. -/
abbrev ended (v : Word) (s : State) : State :=
  { s with err := none, errInfo0 := 0, errInfo1 := 0, result := v }

/-- 60_exceptions R125: the state `s` with the registers of an error. -/
abbrev errored (k : ErrKind) (i0 i1 : Word) (s : State) : State :=
  { s with err := some k, errInfo0 := i0, errInfo1 := i1, result := 0 }

/-- 60_exceptions R129: the state `s` with the registers of an engine fault. -/
abbrev faulted (op : Byte) (c : FaultCode) (info : Word) (s : State) : State :=
  { s with faultCode := some c, faultOpcode := op, faultInfo := info }

/-! ## Terms: words, bytes and ranges -/

/-- Byte `k` of a packed word, byte 0 in bits 31:24 (10_state R34), as a number. -/
abbrev byteAt (w : Word) (k : Nat) : Nat := w.toNat / 256 ^ (3 - k) % 256

/-- `MemRead(a, n)` (20_memory R47). -/
abbrev bytesAt (m : Memory) (a n : Nat) : List Byte := (List.range n).map fun k => m.read (a + k)

/-- The big-endian 32-bit integer at an address (20_memory R49). -/
abbrev wordAt (m : Memory) (a : Nat) : Word :=
  BitVec.ofNat 32 ((m.read a).toNat * 256 ^ 3 + (m.read (a + 1)).toNat * 256 ^ 2 +
    (m.read (a + 2)).toNat * 256 + (m.read (a + 3)).toNat)

/-- The four bytes of a 32-bit value, most significant first (20_memory R49). -/
abbrev bigEndian (v : Nat) : List Byte :=
  [BitVec.ofNat 8 (v / 256 ^ 3), BitVec.ofNat 8 (v / 256 ^ 2), BitVec.ofNat 8 (v / 256),
   BitVec.ofNat 8 v]

/-- The source range lies in `mem` (20_memory R46). -/
abbrev SourceInMem (s : State) : Prop := s.arg0.toNat + s.arg1.toNat ≤ s.cfg.memSize

/-- A destination range of `n` bytes at ARG2 lies in `mem` (20_memory R46). -/
abbrev DestInMem (s : State) (n : Nat) : Prop := s.arg2.toNat + n ≤ s.cfg.memSize

/-- No read of `mem` outside `[a, a+n)` tells `m` and `m'` apart. -/
abbrev SameOutside (m m' : Memory) (a n : Nat) : Prop :=
  ∀ x, x < a ∨ a + n ≤ x → m'.read x = m.read x

/-! ## Terms: letters, CRC, records, text -/

/-- The code of an ASCII capital letter (42_chunk_type R89). -/
abbrev Capital (b : Nat) : Prop := 0x41 ≤ b ∧ b ≤ 0x5A

/-- The code of an ASCII small letter (42_chunk_type R89). -/
abbrev Small (b : Nat) : Prop := 0x61 ≤ b ∧ b ≤ 0x7A

/-- The code of an ASCII letter (42_chunk_type R89). -/
abbrev Letter (b : Nat) : Prop := Capital b ∨ Small b

/-- `Crc32(s)`, the fold of `CrcStep` from 0xFFFFFFFF, complemented (41_crc R80, R81). -/
abbrev crcOf (s : List Byte) : Word := ~~~ s.foldl crcStep 0xFFFFFFFF

/-- The wire layout of a chunk (43_chunk_codec R105). -/
abbrev wire (ty data : List Byte) : List Byte :=
  bigEndian data.length ++ ty ++ data ++ bigEndian (crcOf (ty ++ data)).toNat

/-- Four type bytes, all letters (42_chunk_type R90). -/
abbrev TypeBytes (ty : List Byte) : Prop := ty.length = 4 ∧ ∀ b ∈ ty, Letter b.toNat

/-- `pack` of a byte list (10_state R34): its bytes as the digits of a number, the first the most
significant. -/
abbrev packed (ty : List Byte) : Word := BitVec.ofNat 32 (ty.foldl (fun n b => n * 256 + b.toNat) 0)

/-- The bytes of a packed type, first byte first (10_state R34). -/
abbrev bytesOf (w : Word) : List Byte := bigEndian w.toNat

/-- 0x80..0xBF. -/
abbrev Cont (b : Nat) : Prop := 0x80 ≤ b ∧ b ≤ 0xBF

/-- One row of the table of 43_chunk_codec R108. -/
def Utf8Sequence : List Nat → Prop
  | [a] => a ≤ 0x7F
  | [a, b] => (0xC2 ≤ a ∧ a ≤ 0xDF) ∧ Cont b
  | [a, b, c] =>
    (a = 0xE0 ∧ (0xA0 ≤ b ∧ b ≤ 0xBF) ∧ Cont c) ∨ ((0xE1 ≤ a ∧ a ≤ 0xEC) ∧ Cont b ∧ Cont c) ∨
      (a = 0xED ∧ (0x80 ≤ b ∧ b ≤ 0x9F) ∧ Cont c) ∨ ((0xEE ≤ a ∧ a ≤ 0xEF) ∧ Cont b ∧ Cont c)
  | [a, b, c, d] =>
    (a = 0xF0 ∧ (0x90 ≤ b ∧ b ≤ 0xBF) ∧ Cont c ∧ Cont d) ∨
      ((0xF1 ≤ a ∧ a ≤ 0xF3) ∧ Cont b ∧ Cont c ∧ Cont d) ∨
      (a = 0xF4 ∧ (0x80 ≤ b ∧ b ≤ 0x8F) ∧ Cont c ∧ Cont d)
  | _ => False

/-- Well-formed UTF-8: a concatenation of zero or more sequences of the table (43_chunk_codec R108). -/
def WellFormedText (s : List Byte) : Prop :=
  ∃ parts : List (List Byte), (∀ p ∈ parts, Utf8Sequence (p.map BitVec.toNat)) ∧ s = parts.flatten

/-- `u` is the length of the longest well-formed prefix (43_chunk_codec R108). -/
def LongestTextPrefix (s : List Byte) (u : Nat) : Prop :=
  u ≤ s.length ∧ WellFormedText (s.take u) ∧
    ∀ i, i ≤ s.length → WellFormedText (s.take i) → i ≤ u

/-! ## Terms: encoding and host actions -/

/-- The next host action of an unmarked state is `a`, and `rest` are the ones after it. -/
abbrev NextAction (s : State) (a : HostAction) (rest : List HostAction) : Prop :=
  s.refusedMark = false ∧ s.pending = a :: rest

/-- The three conditions under which a word is illegal (30_encoding R72). -/
abbrev IllegalBits (w : Word) : Prop :=
  (w.toNat % 256 = 0x00 ∨ (0x05 ≤ w.toNat % 256 ∧ w.toNat % 256 ≤ 0x0F) ∨
    (0x1A ≤ w.toNat % 256 ∧ w.toNat % 256 ≤ 0x1F) ∨ 0x29 ≤ w.toNat % 256) ∨
  w.toNat / 2 ^ 16 ≠ 0 ∨ (w.toNat / 2 ^ 8 % 256 ≠ 0 ∧ w.toNat % 256 ≠ 0x02)

/-- `w` is illegal: the decoder refuses it, and a CMD write of it to an engine with no fault sets CMD and
raises ILLEGAL_COMMAND with the word as context (30_encoding R72, 60_exceptions R129). -/
def Illegal (w : Word) : Prop :=
  (∃ e, decode w = .error e) ∧
  ∀ s rest, NextAction s (.regWrite .word 0x00 w) rest → s.faultCode = none →
    step s = .next (faulted (BitVec.ofNat 8 w.toNat) .illegalCommand w
      { s with pending := rest, cmd := w })

/-- Of all the words with opcode `op`, exactly the one with IMM8 = 0 and RSV = 0 is the command `i`, and
the others are illegal (30_encoding R71, R72). -/
def OnlyWordOf (op : Byte) (i : Instr) : Prop :=
  ∀ w : Word, w.toNat % 256 = op.toNat →
    (w = op.setWidth 32 → decode w = .ok i) ∧ (w ≠ op.setWidth 32 → Illegal w)

/-- NEEDS_CT (30_encoding R74). -/
abbrev NeedsCt : List Instr :=
  [.ctBytes, .ctIsCritical, .ctIsPublic, .ctIsReservedBitValid, .ctIsSafeToCopy, .ctIsValid,
   .ctToString, .ctEq, .chunkNew]

/-- NEEDS_CH (30_encoding R74). -/
abbrev NeedsCh : List Instr :=
  [.chunkLength, .chunkCrc, .chunkDataAsText, .chunkSerialize, .chunkData, .chunkType]

/-- SRC_OPS (30_encoding R74). -/
abbrev SrcOps : List Instr := [.crcUpdate, .ctFromString, .chunkNew, .chunkParse, .chunkParseNext]

/-- DST_OPS, each with its DstLen (30_encoding R73, R74). -/
abbrev DstOps (s : State) : List (Instr × Nat) :=
  [(.ctToString, 4), (.chunkDataAsText, s.chLen.toNat), (.chunkSerialize, 12 + s.chLen.toNat),
   (.chunkData, s.chLen.toNat)]

/-- The presence checks of dispatch pass (30_encoding R74, stage 2). -/
abbrev Present (s : State) (i : Instr) : Prop :=
  (i ∈ NeedsCt → s.ctPresent = true) ∧ (i ∈ NeedsCh → s.chPresent = true)

/-- The reset table of 70_reset_and_hazards R141, less PL and `mem`. -/
abbrev ResetTable (t : State) : Prop :=
  t.cmd = 0 ∧ t.arg0 = 0 ∧ t.arg1 = 0 ∧ t.arg2 = 0 ∧ t.result = 0 ∧ t.err = none ∧
    t.errInfo0 = 0 ∧ t.errInfo1 = 0 ∧ t.faultCode = none ∧ t.faultOpcode = 0 ∧ t.faultInfo = 0 ∧
    t.crcAcc = 0xFFFFFFFF ∧ t.ct = 0 ∧ t.ctPresent = false ∧ t.chType = 0 ∧ t.chLen = 0 ∧
    t.chPresent = false ∧ t.status = 0 ∧ t.faultWord = 0 ∧ t.readRegister 0x38 = 0 ∧
    t.readRegister 0x3C = 0

/-! ## Terms: the parse commands -/

/-- The declared length, the four type bytes, the payload, and the two CRCs of the record at ARG0
(43_chunk_codec R105). -/
abbrev declaredLen (s : State) : Nat := (wordAt s.mem s.arg0.toNat).toNat

/-- The type bytes of the record at ARG0. -/
abbrev typeBytes (s : State) : List Byte := bytesAt s.mem (s.arg0.toNat + 4) 4

/-- The payload of the record at ARG0. -/
abbrev payloadBytes (s : State) : List Byte := bytesAt s.mem (s.arg0.toNat + 8) (declaredLen s)

/-- The stored CRC field of the record at ARG0. -/
abbrev storedCrc (s : State) : Word := wordAt s.mem (s.arg0.toNat + 8 + declaredLen s)

/-- The CRC recomputed from the record at ARG0 (43_chunk_codec R104). -/
abbrev recomputedCrc (s : State) : Word := crcOf (typeBytes s ++ payloadBytes s)

/-- The buffer `[ARG0, ARG0 + ARG1)` begins with a valid record of type `ty` and payload `data` that
fits the payload RAM, and lies in `mem`. -/
abbrev RecordAtSource (s : State) (ty data : List Byte) : Prop :=
  SourceInMem s ∧ TypeBytes ty ∧ data.length ≤ s.cfg.payloadCap ∧
    12 + data.length ≤ s.arg1.toNat ∧
    bytesAt s.mem s.arg0.toNat (12 + data.length) = wire ty data

/-- The failures the two parse commands share, in the order of 43_chunk_codec R111, each with its
report (60_exceptions R124, R128); `tooLong` is the kind for an over-long declared length. -/
def ParseFailures (i : Instr) (op : Byte) (tooLong : ErrKind) : Prop :=
  (∀ s, ¬ SourceInMem s → exec i s = .next (faulted op .memRange s.arg0 s)) ∧
  (∀ s, SourceInMem s → s.arg1.toNat < 12 →
    exec i s = .next (errored .tooShort 12 s.arg1 s)) ∧
  (∀ s k, SourceInMem s → 12 ≤ s.arg1.toNat → k < 4 →
    (∀ j, j < k → Letter (s.mem.read (s.arg0.toNat + 4 + j)).toNat) →
    ¬ Letter (s.mem.read (s.arg0.toNat + 4 + k)).toNat →
    exec i s = .next (errored .invalidCharacter (BitVec.ofNat 32 k)
      (BitVec.ofNat 32 (s.mem.read (s.arg0.toNat + 4 + k)).toNat) s)) ∧
  (∀ s, SourceInMem s → 12 ≤ s.arg1.toNat → TypeBytes (typeBytes s) →
    s.arg1.toNat < 12 + declaredLen s →
    exec i s = .next (errored tooLong (wordAt s.mem s.arg0.toNat) (s.arg1 - 12) s)) ∧
  (∀ s, SourceInMem s → TypeBytes (typeBytes s) → 12 + declaredLen s ≤ s.arg1.toNat →
    s.cfg.payloadCap < declaredLen s →
    exec i s = .next (faulted op .capacity (wordAt s.mem s.arg0.toNat) s)) ∧
  (∀ s, SourceInMem s → TypeBytes (typeBytes s) → 12 + declaredLen s ≤ s.arg1.toNat →
    declaredLen s ≤ s.cfg.payloadCap → recomputedCrc s ≠ storedCrc s →
    exec i s = .next (errored .crcMismatch (recomputedCrc s) (storedCrc s) s))

/-- What the two predicates of a presence-checked query say: with CT present the command completes
with `v`, without it the fault NO_TYPE is recorded (60_exceptions R128). -/
def TypeQuery (i : Instr) (op : Byte) (v : State → Word) : Prop :=
  OnlyWordOf op i ∧
  (∀ s : State, s.ctPresent = true → exec i s = .next (ended (v s) s)) ∧
  (∀ s : State, s.ctPresent = false → exec i s = .next (faulted op .noType 0 s))

/-- The same for a query of the chunk register (NO_CHUNK). -/
def ChunkQuery (i : Instr) (op : Byte) (v : State → Word) : Prop :=
  OnlyWordOf op i ∧
  (∀ s : State, s.chPresent = true → exec i s = .next (ended (v s) s)) ∧
  (∀ s : State, s.chPresent = false → exec i s = .next (faulted op .noChunk 0 s))

end Sys2Proof.Claims

open Sys2Proof Sys2Proof.Machine Sys2Proof.Claims

/-! # Encoding -/

/-- 30_encoding R71: the 23 opcodes. With `IllegalWordsFault` the words not listed are illegal. -/
def Obligations.OpcodeMapDecodes : Prop :=
  decode 0x00000001 = .ok .crcInit ∧
  (∀ b : Byte, decode (0x00000002 ||| (b.setWidth 32 <<< 8)) = .ok (.crcUpdateByte b)) ∧
  decode 0x00000003 = .ok .crcUpdate ∧ decode 0x00000004 = .ok .crcGet ∧
  decode 0x00000010 = .ok .ctNew ∧ decode 0x00000011 = .ok .ctFromString ∧
  decode 0x00000012 = .ok .ctBytes ∧ decode 0x00000013 = .ok .ctIsCritical ∧
  decode 0x00000014 = .ok .ctIsPublic ∧ decode 0x00000015 = .ok .ctIsReservedBitValid ∧
  decode 0x00000016 = .ok .ctIsSafeToCopy ∧ decode 0x00000017 = .ok .ctIsValid ∧
  decode 0x00000018 = .ok .ctToString ∧ decode 0x00000019 = .ok .ctEq ∧
  decode 0x00000020 = .ok .chunkNew ∧ decode 0x00000021 = .ok .chunkLength ∧
  decode 0x00000022 = .ok .chunkCrc ∧ decode 0x00000023 = .ok .chunkDataAsText ∧
  decode 0x00000024 = .ok .chunkSerialize ∧ decode 0x00000025 = .ok .chunkParse ∧
  decode 0x00000026 = .ok .chunkParseNext ∧ decode 0x00000027 = .ok .chunkData ∧
  decode 0x00000028 = .ok .chunkType ∧
  (∀ w i, decode w = .ok i → w.toNat / 2 ^ 16 = 0 ∧
    (w.toNat % 256 ≠ 0x02 → w.toNat / 2 ^ 8 % 256 = 0))

/-- 30_encoding R72: which words are illegal, and that an illegal word raises ILLEGAL_COMMAND with the word
as its context. Every other word is a command. -/
def Obligations.IllegalWordsFault : Prop :=
  ∀ w : Word, (IllegalBits w → Illegal w) ∧ (¬ IllegalBits w → ∃ i, decode w = .ok i)

/-- Encoder and decoder agree in both directions: every command is recovered from its word, and every
legal word is the word of the command it decodes to, so no bit of an encoding is dropped. -/
def Obligations.EncodeDecodeAgree : Prop :=
  (∀ i : Instr, decode (encode i) = .ok i) ∧ (∀ w i, decode w = .ok i → encode i = w) ∧
  (∀ i, CommandWord.wf (encode i) = true)

/-! # The step and the host's actions -/

/-- A step at a CMD write of a legal word runs that command (30_encoding R74): CMD takes the word, the
action is gone from the host's list, and the rest is `exec`. The second part says so of a word
placed by `withFetchWord`. -/
def Obligations.StepRunsDecodedCommand : Prop :=
  (∀ s w rest i, NextAction s (.regWrite .word 0x00 w) rest → s.faultCode = none →
    decode w = .ok i → step s = exec i { s with pending := rest, cmd := w }) ∧
  (∀ (s : State) w i, s.refusedMark = false → s.faultCode = none → decodeTableWord 32 w = some i →
    step (s.withFetchWord 32 w) = exec i { s with cmd := BitVec.ofNat 32 w })

/-- 60_exceptions R130: a recorded fault makes the engine ignore every CMD write; ARG writes still
store, every register can still be read, and only reset clears the fault. -/
def Obligations.FaultIsStickyUntilReset : Prop :=
  ∀ s : State, s.refusedMark = false → s.faultCode ≠ none →
    (∀ w rest, s.pending = .regWrite .word 0x00 w :: rest →
      step s = .next { s with pending := rest }) ∧
    (∀ v rest, s.pending = .regWrite .word 0x04 v :: rest →
      step s = .next { s with pending := rest, arg0 := v }) ∧
    (∀ v rest, s.pending = .regWrite .word 0x08 v :: rest →
      step s = .next { s with pending := rest, arg1 := v }) ∧
    (∀ v rest, s.pending = .regWrite .word 0x0C v :: rest →
      step s = .next { s with pending := rest, arg2 := v }) ∧
    (∀ off rest, off % 4 = 0 → off ≤ 0x3C → s.pending = .regRead .word off :: rest →
      step s = .next { s with
        pending := rest, replies := .reg (s.readRegister off) :: s.replies }) ∧
    (∀ t, step s = .next t → s.pending.head? ≠ some .assertReset →
      t.faultCode = s.faultCode ∧ t.faultOpcode = s.faultOpcode ∧ t.faultInfo = s.faultInfo) ∧
    (∀ rest, s.pending = .assertReset :: rest →
      ∃ t, step s = .next t ∧ t.faultCode = none ∧ t.faultOpcode = 0 ∧ t.faultInfo = 0)

/-- A host that keeps its duties (20_memory R66) never stops the machine and never leaves the mark of
20_memory R53: every step answers a next state. With no action left it is the same state
(60_exceptions R140). -/
def Obligations.DutifulHostNeverStops : Prop :=
  ∀ s : State, s.refusedMark = false → (∀ a ∈ s.pending, a.wf s.cfg = true) →
    ∃ t, step s = .next t ∧ t.refusedMark = false ∧ t.pending = s.pending.tail ∧
      t.cfg = s.cfg ∧ (s.pending = [] → t = s)

/-- 10_state R24, R25: an aligned 32-bit read returns the register's value and changes no state of the
engine; reserved offsets return 0. -/
def Obligations.RegisterReadReturnsValue : Prop :=
  ∀ (s : State) off v rest, NextAction s (.regRead .word off) rest →
    (off, v) ∈ [(0x00, s.cmd), (0x04, s.arg0), (0x08, s.arg1), (0x0C, s.arg2), (0x10, s.result),
      (0x14, s.status), (0x18, s.errInfo0), (0x1C, s.errInfo1), (0x20, s.faultWord),
      (0x24, s.faultInfo), (0x28, s.crcAcc), (0x2C, s.ct), (0x30, s.chType), (0x34, s.chLen),
      (0x38, (0 : Word)), (0x3C, (0 : Word))] →
    step s = .next { s with pending := rest, replies := .reg v :: s.replies }

/-- 10_state R25, R27: a write to ARG0, ARG1 or ARG2 stores the value and nothing else; a write to a
read-only or reserved offset is ignored. -/
def Obligations.RegisterWriteStoresOrIsIgnored : Prop :=
  ∀ (s : State) off v rest, NextAction s (.regWrite .word off v) rest →
    (off = 0x04 → step s = .next { s with pending := rest, arg0 := v }) ∧
    (off = 0x08 → step s = .next { s with pending := rest, arg1 := v }) ∧
    (off = 0x0C → step s = .next { s with pending := rest, arg2 := v }) ∧
    (off % 4 = 0 → 0x10 ≤ off → off ≤ 0x3C → step s = .next { s with pending := rest })

/-- 20_memory R53: an access that is not 32 bits wide, misaligned or beyond the window leaves the mark, and
no step leads out of a marked state: the model refuses by name. That the registers of the marked
state are those before the access is the model's choice (log entry 6), and so is that a width R53
does not name, over 32 bits for example, is refused alike (log entry 11). -/
def Obligations.UndefinedAccessIsRefused : Prop :=
  (∀ (s : State) width off v rest, NextAction s (.regWrite width off v) rest →
    (width ≠ .word ∨ off % 4 ≠ 0 ∨ 0x40 ≤ off) →
    step s = .next { s with pending := rest, refusedMark := true }) ∧
  (∀ (s : State) width off rest, NextAction s (.regRead width off) rest →
    (width ≠ .word ∨ off % 4 ≠ 0 ∨ 0x40 ≤ off) →
    step s = .next { s with pending := rest, refusedMark := true }) ∧
  (∀ s : State, s.refusedMark = true → step s = .refused .undefinedAccess)

/-- 20_memory R45, R57, R66: the host reads and writes bytes of `mem`, with no side effect. That an
address at or above MEM_SIZE stops the model by name is the model's choice (log entry 7). -/
def Obligations.HostMemoryBytes : Prop :=
  (∀ (s : State) a b rest, NextAction s (.memWrite a b) rest → s.mem.wf → a < s.cfg.memSize →
    ∃ m : Memory, step s = .next { s with pending := rest, mem := m } ∧ m.read a = b ∧
      SameOutside s.mem m a 1) ∧
  (∀ (s : State) a rest, NextAction s (.memRead a) rest → a < s.cfg.memSize →
    step s = .next { s with pending := rest, replies := .mem (s.mem.read a) :: s.replies }) ∧
  (∀ (s : State) a b rest, NextAction s (.memWrite a b) rest → s.cfg.memSize ≤ a →
    step s = .fault (.noSuchMemByte a)) ∧
  (∀ (s : State) a rest, NextAction s (.memRead a) rest → s.cfg.memSize ≤ a →
    step s = .fault (.noSuchMemByte a))

/-- 70_reset_and_hazards R141: reset, asserted between two host accesses in any state, gives every
register its reset value and leaves `mem` unchanged; the engine then accepts a CMD write; and the
initial state is that table, for any parameters and `mem`. PL is unspecified there, so nothing is
said of it. -/
def Obligations.ResetSetsEveryRegister : Prop :=
  (∀ (s : State) rest, NextAction s .assertReset rest →
    ∃ t, step s = .next t ∧ ResetTable t ∧ t.mem = s.mem ∧ t.cfg = s.cfg ∧ t.pending = rest ∧
      t.replies = s.replies ∧
      ∀ w more, rest = .regWrite .word 0x00 w :: more → ∃ u, step t = .next u ∧ u.cmd = w) ∧
  ResetTable State.reset ∧
  ∀ (c : Config) (m : Memory), ResetTable (State.resetWith c m) ∧
    (State.resetWith c m).mem = m ∧ (State.resetWith c m).cfg = c

/-- 70_reset_and_hazards R142: right after reset a leading CRC_INIT changes nothing, and CRC_GET gives
the CRC of the empty sequence, 0. -/
def Obligations.FreshCrcAfterReset : Prop :=
  ∀ (c : Config) (m : Memory),
    (State.resetWith c m).crcAcc = 0xFFFFFFFF ∧
    exec .crcInit (State.resetWith c m) = .next (State.resetWith c m) ∧
    exec .crcGet (State.resetWith c m) = .next (State.resetWith c m) ∧
    (State.resetWith c m).result = 0 ∧ crcOf [] = 0

/-- 10_state R29: STATUS, field by field, never an ERR from 9 to 15, 0 at reset, and read-only: a host
read returns it and a host write is ignored. -/
def Obligations.StatusIsTheView : Prop :=
  State.reset.status = 0 ∧
  (∀ (s : State) rest, NextAction s (.regRead .word 0x14) rest →
    step s = .next { s with pending := rest, replies := .reg s.status :: s.replies }) ∧
  (∀ (s : State) v rest, NextAction s (.regWrite .word 0x14 v) rest →
    step s = .next { s with pending := rest }) ∧
  ∀ s : State,
    s.status.toNat =
      (match s.err with
        | none => 0
        | some .invalidCharacter => 1
        | some .wrongLength => 2
        | some .tooShort => 3
        | some .lengthMismatch => 4
        | some .lengthExceedsBuffer => 5
        | some .trailingData => 6
        | some .crcMismatch => 7
        | some .invalidEncoding => 8) +
      (if s.ctPresent = true then 2 ^ 8 else 0) + (if s.chPresent = true then 2 ^ 9 else 0) +
      (if s.faultCode ≠ none then 2 ^ 16 else 0) ∧
    s.status.toNat % 16 ≤ 8

/-- 10_state R31 with the codes of 60_exceptions R128: FAULT, field by field. -/
def Obligations.FaultIsTheView : Prop :=
  ∀ s : State,
    s.faultWord.toNat =
      (match s.faultCode with
        | none => 0
        | some .illegalCommand => 1
        | some .memRange => 2
        | some .noType => 3
        | some .noChunk => 4
        | some .capacity => 5) + 256 * s.faultOpcode.toNat

/-- 30_encoding R74: a CMD write to a faulted engine is ignored; else CMD takes the word, and the first
stage that fails ends the command: decode, presence, source range, destination range. When they
all pass the command's own rule runs, which can raise no fault but CAPACITY. No command is in both
of the first two sets or in both of the last two. -/
def Obligations.DispatchOrder : Prop :=
  (∀ i, ¬ (i ∈ NeedsCt ∧ i ∈ NeedsCh)) ∧
  (∀ (s : State) i n, ¬ (i ∈ SrcOps ∧ (i, n) ∈ DstOps s)) ∧
  ∀ (s : State) w rest, NextAction s (.regWrite .word 0x00 w) rest →
    (s.faultCode ≠ none → step s = .next { s with pending := rest }) ∧
    (s.faultCode = none → (∃ e, decode w = .error e) →
      step s = .next (faulted (BitVec.ofNat 8 w.toNat) .illegalCommand w
        { s with pending := rest, cmd := w })) ∧
    ∀ i, s.faultCode = none → decode w = .ok i →
      (i ∈ NeedsCt → s.ctPresent = false →
        step s = .next (faulted (BitVec.ofNat 8 w.toNat) .noType 0
          { s with pending := rest, cmd := w })) ∧
      (i ∈ NeedsCh → s.chPresent = false →
        step s = .next (faulted (BitVec.ofNat 8 w.toNat) .noChunk 0
          { s with pending := rest, cmd := w })) ∧
      (Present s i → i ∈ SrcOps → ¬ SourceInMem s →
        step s = .next (faulted (BitVec.ofNat 8 w.toNat) .memRange s.arg0
          { s with pending := rest, cmd := w })) ∧
      (∀ n, Present s i → (i, n) ∈ DstOps s → ¬ DestInMem s n →
        step s = .next (faulted (BitVec.ofNat 8 w.toNat) .memRange s.arg2
          { s with pending := rest, cmd := w })) ∧
      (Present s i → (i ∈ SrcOps → SourceInMem s) → (∀ n, (i, n) ∈ DstOps s → DestInMem s n) →
        ∃ t, step s = .next t ∧ t.cmd = w ∧
          (t.faultCode = none ∨ t.faultCode = some .capacity))

/-- 30_encoding R77: the expansions of the pseudo-instructions. -/
def Obligations.PseudoInstructionsExpand : Prop :=
  ∀ a n t d : Word,
    (AsmLine.crcUpdate a n).expand = [.regWrite .word 0x04 a, .regWrite .word 0x08 n,
      .regWrite .word 0x00 0x00000003] ∧
    (AsmLine.ctNew t).expand = [.regWrite .word 0x04 t, .regWrite .word 0x00 0x00000010] ∧
    (AsmLine.ctFromString a n).expand = [.regWrite .word 0x04 a, .regWrite .word 0x08 n,
      .regWrite .word 0x00 0x00000011] ∧
    (AsmLine.ctToString d).expand = [.regWrite .word 0x0C d, .regWrite .word 0x00 0x00000018] ∧
    (AsmLine.ctEq t).expand = [.regWrite .word 0x04 t, .regWrite .word 0x00 0x00000019] ∧
    (AsmLine.chunkNew a n).expand = [.regWrite .word 0x04 a, .regWrite .word 0x08 n,
      .regWrite .word 0x00 0x00000020] ∧
    (AsmLine.chunkDataAsText d).expand = [.regWrite .word 0x0C d,
      .regWrite .word 0x00 0x00000023] ∧
    (AsmLine.chunkSerialize d).expand = [.regWrite .word 0x0C d,
      .regWrite .word 0x00 0x00000024] ∧
    (AsmLine.chunkParse a n).expand = [.regWrite .word 0x04 a, .regWrite .word 0x08 n,
      .regWrite .word 0x00 0x00000025] ∧
    (AsmLine.chunkParseNext a n).expand = [.regWrite .word 0x04 a, .regWrite .word 0x08 n,
      .regWrite .word 0x00 0x00000026] ∧
    (AsmLine.chunkData d).expand = [.regWrite .word 0x0C d, .regWrite .word 0x00 0x00000027] ∧
    (AsmLine.command .chunkParseNext).expand = [.regWrite .word 0x00 0x00000026]

/-! # CRC Engine -/

/-- 10_state R43: the 256 entries of `T` as the spec lists them. -/
def Obligations.CrcTableMatchesListing : Prop :=
  (List.range 256).map (fun n => crcTable (BitVec.ofNat 8 n)) = crcRom

/-- 41_crc R83: the step without the table equals the step with it, for every accumulator and byte. -/
def Obligations.BitwiseStepMatchesTable : Prop :=
  ∀ (acc : Word) (b : Byte), crcStepBitwise acc b = crcStep acc b

/-- 41_crc R82: CRC_UPDATE over two consecutive pieces leaves the CRC_ACC of one CRC_UPDATE over both,
and over one byte that of CRC_UPDATE_BYTE of that byte. -/
def Obligations.CrcUpdateIsIncremental : Prop :=
  (∀ (s t u v : State) (n k : Word), s.cfg.wf = true → s.arg1.toNat = n.toNat + k.toNat →
    SourceInMem s → exec .crcUpdate s = .next t →
    exec .crcUpdate { s with arg1 := n } = .next u →
    exec .crcUpdate { u with arg0 := u.arg0 + n, arg1 := k } = .next v →
    v.crcAcc = t.crcAcc ∧ v.mem = t.mem ∧ v.faultCode = t.faultCode) ∧
  (∀ (s t u : State), s.arg1 = 1 → SourceInMem s → exec .crcUpdate s = .next t →
    exec (.crcUpdateByte (s.mem.read s.arg0.toNat)) s = .next u → u = t)

/-- 41_crc R85, CRC_INIT. -/
def Obligations.CrcInitCommand : Prop :=
  OnlyWordOf 0x01 .crcInit ∧
  ∀ s : State, exec .crcInit s = .next (ended 0 { s with crcAcc := 0xFFFFFFFF })

/-- 41_crc R86, CRC_UPDATE_BYTE. -/
def Obligations.CrcUpdateByteCommand : Prop :=
  (∀ w : Word, w.toNat % 256 = 0x02 →
    (w.toNat / 2 ^ 16 = 0 → decode w = .ok (.crcUpdateByte (BitVec.ofNat 8 (w.toNat / 2 ^ 8)))) ∧
    (w.toNat / 2 ^ 16 ≠ 0 → Illegal w)) ∧
  ∀ (s : State) (b : Byte), exec (.crcUpdateByte b) s = .next (ended 0 { s with
    crcAcc := crcTable (BitVec.ofNat 8 (s.crcAcc.toNat % 256) ^^^ b) ^^^ (s.crcAcc >>> 8) })

/-- 41_crc R87, CRC_UPDATE. -/
def Obligations.CrcUpdateCommand : Prop :=
  OnlyWordOf 0x03 .crcUpdate ∧
  (∀ s : State, SourceInMem s → exec .crcUpdate s = .next (ended 0 { s with
    crcAcc := (bytesAt s.mem s.arg0.toNat s.arg1.toNat).foldl crcStep s.crcAcc })) ∧
  (∀ s : State, ¬ SourceInMem s → exec .crcUpdate s = .next (faulted 0x03 .memRange s.arg0 s))

/-- 41_crc R88, CRC_GET: CRC_ACC is not consumed. -/
def Obligations.CrcGetCommand : Prop :=
  OnlyWordOf 0x04 .crcGet ∧
  ∀ s : State, exec .crcGet s = .next (ended (0xFFFFFFFF ^^^ s.crcAcc) s)

/-! # Chunk Type -/

/-- 42_chunk_type R94, CT_NEW. -/
def Obligations.CtNewCommand : Prop :=
  OnlyWordOf 0x10 .ctNew ∧
  (∀ s : State, (∀ k, k < 4 → Letter (byteAt s.arg0 k)) →
    exec .ctNew s = .next (ended s.arg0 { s with ct := s.arg0, ctPresent := true })) ∧
  (∀ (s : State) k, k < 4 → (∀ j, j < k → Letter (byteAt s.arg0 j)) → ¬ Letter (byteAt s.arg0 k) →
    exec .ctNew s = .next (errored .invalidCharacter (BitVec.ofNat 32 k)
      (BitVec.ofNat 32 (byteAt s.arg0 k)) s))

/-- 42_chunk_type R95, CT_FROM_STRING. -/
def Obligations.CtFromStringCommand : Prop :=
  OnlyWordOf 0x11 .ctFromString ∧
  (∀ s : State, SourceInMem s → s.arg1 = 4 → TypeBytes (bytesAt s.mem s.arg0.toNat 4) →
    exec .ctFromString s = .next (ended (wordAt s.mem s.arg0.toNat)
      { s with ct := wordAt s.mem s.arg0.toNat, ctPresent := true })) ∧
  (∀ s : State, ¬ SourceInMem s →
    exec .ctFromString s = .next (faulted 0x11 .memRange s.arg0 s)) ∧
  (∀ s : State, SourceInMem s → s.arg1 ≠ 4 →
    exec .ctFromString s = .next (errored .wrongLength 4 s.arg1 s)) ∧
  (∀ (s : State) k, SourceInMem s → s.arg1 = 4 → k < 4 →
    (∀ j, j < k → Letter (s.mem.read (s.arg0.toNat + j)).toNat) →
    ¬ Letter (s.mem.read (s.arg0.toNat + k)).toNat →
    exec .ctFromString s = .next (errored .invalidCharacter (BitVec.ofNat 32 k)
      (BitVec.ofNat 32 (s.mem.read (s.arg0.toNat + k)).toNat) s))

/-- 42_chunk_type R96, CT_BYTES. -/
def Obligations.CtBytesCommand : Prop := TypeQuery .ctBytes 0x12 fun s => s.ct

/-- 42_chunk_type R97, CT_IS_CRITICAL. -/
def Obligations.CtIsCriticalCommand : Prop :=
  TypeQuery .ctIsCritical 0x13 fun s => if Capital (byteAt s.ct 0) then 1 else 0

/-- 42_chunk_type R98, CT_IS_PUBLIC. -/
def Obligations.CtIsPublicCommand : Prop :=
  TypeQuery .ctIsPublic 0x14 fun s => if Capital (byteAt s.ct 1) then 1 else 0

/-- 42_chunk_type R99, CT_IS_RESERVED_BIT_VALID. -/
def Obligations.CtIsReservedBitValidCommand : Prop :=
  TypeQuery .ctIsReservedBitValid 0x15 fun s => if Capital (byteAt s.ct 2) then 1 else 0

/-- 42_chunk_type R100, CT_IS_SAFE_TO_COPY: the one property that is true for lowercase. -/
def Obligations.CtIsSafeToCopyCommand : Prop :=
  TypeQuery .ctIsSafeToCopy 0x16 fun s => if Small (byteAt s.ct 3) then 1 else 0

/-- 42_chunk_type R101, CT_IS_VALID, which equals CT_IS_RESERVED_BIT_VALID for a present CT. -/
def Obligations.CtIsValidCommand : Prop :=
  TypeQuery .ctIsValid 0x17 (fun s => if Capital (byteAt s.ct 2) then 1 else 0) ∧
  ∀ s : State, s.ctPresent = true → exec .ctIsValid s = exec .ctIsReservedBitValid s

/-- 42_chunk_type R102, CT_TO_STRING. -/
def Obligations.CtToStringCommand : Prop :=
  OnlyWordOf 0x18 .ctToString ∧
  (∀ s : State, s.mem.wf → s.ctPresent = true → DestInMem s 4 →
    ∃ m : Memory, exec .ctToString s = .next (ended 4 { s with mem := m }) ∧
      (∀ k, k < 4 → (m.read (s.arg2.toNat + k)).toNat = byteAt s.ct k) ∧
      SameOutside s.mem m s.arg2.toNat 4) ∧
  (∀ s : State, s.ctPresent = false → exec .ctToString s = .next (faulted 0x18 .noType 0 s)) ∧
  (∀ s : State, s.ctPresent = true → ¬ DestInMem s 4 →
    exec .ctToString s = .next (faulted 0x18 .memRange s.arg2 s))

/-- 42_chunk_type R103, CT_EQ, ARG0 not validated; and 42_chunk_type R93: packed words are equal exactly
when the four bytes are equal in order. -/
def Obligations.CtEqCommand : Prop :=
  TypeQuery .ctEq 0x19 (fun s => if s.ct = s.arg0 then 1 else 0) ∧
  ∀ v w : Word, v = w ↔ ∀ k, k < 4 → byteAt v k = byteAt w k

/-- 42_chunk_type R92: for a CT that holds letters the four properties are its bits 29, 21, 13 and 5. -/
def Obligations.PropertiesAreCaseBits : Prop :=
  ∀ s : State, s.TypeInv → s.ctPresent = true →
    exec .ctIsCritical s = .next (ended (if s.ct.getLsbD 29 then 0 else 1) s) ∧
    exec .ctIsPublic s = .next (ended (if s.ct.getLsbD 21 then 0 else 1) s) ∧
    exec .ctIsReservedBitValid s = .next (ended (if s.ct.getLsbD 13 then 0 else 1) s) ∧
    exec .ctIsSafeToCopy s = .next (ended (if s.ct.getLsbD 5 then 1 else 0) s)

/-! # Chunk Codec -/

/-- 43_chunk_codec R112, CHUNK_NEW: the type is copied, CT stays. -/
def Obligations.ChunkNewCommand : Prop :=
  OnlyWordOf 0x20 .chunkNew ∧
  (∀ s : State, s.ctPresent = true → SourceInMem s → s.arg1.toNat ≤ s.cfg.payloadCap →
    exec .chunkNew s = .next (ended s.arg1 { s with
      chType := s.ct, pl := bytesAt s.mem s.arg0.toNat s.arg1.toNat, chLen := s.arg1,
      chPresent := true })) ∧
  (∀ s : State, s.ctPresent = false → exec .chunkNew s = .next (faulted 0x20 .noType 0 s)) ∧
  (∀ s : State, s.ctPresent = true → ¬ SourceInMem s →
    exec .chunkNew s = .next (faulted 0x20 .memRange s.arg0 s)) ∧
  (∀ s : State, s.ctPresent = true → SourceInMem s → s.cfg.payloadCap < s.arg1.toNat →
    exec .chunkNew s = .next (faulted 0x20 .capacity s.arg1 s))

/-- 43_chunk_codec R113, CHUNK_LENGTH. -/
def Obligations.ChunkLengthCommand : Prop := ChunkQuery .chunkLength 0x21 fun s => s.chLen

/-- 43_chunk_codec R114, CHUNK_CRC: recomputed from CH_TYPE and PL, CRC_ACC untouched. -/
def Obligations.ChunkCrcCommand : Prop :=
  ChunkQuery .chunkCrc 0x22 fun s => crcOf (bytesOf s.chType ++ s.pl)

/-- 43_chunk_codec R115, CHUNK_DATA_AS_TEXT. The premise `pl.length = chLen` is 43_chunk_codec R106,
part of `StepKeepsInvariant`. -/
def Obligations.ChunkDataAsTextCommand : Prop :=
  OnlyWordOf 0x23 .chunkDataAsText ∧
  (∀ s : State, s.mem.wf → s.chPresent = true → s.pl.length = s.chLen.toNat →
    DestInMem s s.chLen.toNat → WellFormedText s.pl →
    ∃ m : Memory, exec .chunkDataAsText s = .next (ended s.chLen { s with mem := m }) ∧
      bytesAt m s.arg2.toNat s.chLen.toNat = s.pl ∧
      SameOutside s.mem m s.arg2.toNat s.chLen.toNat) ∧
  (∀ s : State, s.chPresent = false →
    exec .chunkDataAsText s = .next (faulted 0x23 .noChunk 0 s)) ∧
  (∀ s : State, s.chPresent = true → ¬ DestInMem s s.chLen.toNat →
    exec .chunkDataAsText s = .next (faulted 0x23 .memRange s.arg2 s)) ∧
  (∀ (s : State) u b, s.chPresent = true → s.pl.length = s.chLen.toNat →
    DestInMem s s.chLen.toNat → LongestTextPrefix s.pl u → s.pl[u]? = some b →
    exec .chunkDataAsText s = .next (errored .invalidEncoding (BitVec.ofNat 32 u)
      (BitVec.ofNat 32 b.toNat) s))

/-- 43_chunk_codec R116, CHUNK_SERIALIZE: the wire layout at ARG2. The premises are 43_chunk_codec
R106, part of `StepKeepsInvariant`. -/
def Obligations.ChunkSerializeCommand : Prop :=
  OnlyWordOf 0x24 .chunkSerialize ∧
  (∀ s : State, s.mem.wf → s.chPresent = true → s.pl.length = s.chLen.toNat →
    s.pl.length ≤ 2 ^ 32 - 13 → DestInMem s (12 + s.chLen.toNat) →
    ∃ (m : Memory) (v : Word), exec .chunkSerialize s = .next (ended v { s with mem := m }) ∧
      v.toNat = 12 + s.chLen.toNat ∧
      bytesAt m s.arg2.toNat (12 + s.chLen.toNat) = wire (bytesOf s.chType) s.pl ∧
      SameOutside s.mem m s.arg2.toNat (12 + s.chLen.toNat)) ∧
  (∀ s : State, s.chPresent = false →
    exec .chunkSerialize s = .next (faulted 0x24 .noChunk 0 s)) ∧
  (∀ s : State, s.chPresent = true → ¬ DestInMem s (12 + s.chLen.toNat) →
    exec .chunkSerialize s = .next (faulted 0x24 .memRange s.arg2 s))

/-- 43_chunk_codec R117, CHUNK_PARSE: a buffer that is exactly a valid record is accepted; the failures
in the order of R111, TrailingData last. -/
def Obligations.ChunkParseCommand : Prop :=
  OnlyWordOf 0x25 .chunkParse ∧
  (∀ (s : State) ty data, RecordAtSource s ty data → s.arg1.toNat = 12 + data.length →
    exec .chunkParse s = .next (ended s.arg1 { s with
      chType := packed ty, chLen := BitVec.ofNat 32 data.length, pl := data,
      chPresent := true })) ∧
  ParseFailures .chunkParse 0x25 .lengthMismatch ∧
  (∀ (s : State) ty data, RecordAtSource s ty data → 12 + data.length < s.arg1.toNat →
    exec .chunkParse s = .next (errored .trailingData (BitVec.ofNat 32 (12 + data.length))
      (BitVec.ofNat 32 (s.arg1.toNat - 12 - data.length)) s))

/-- 43_chunk_codec R118, CHUNK_PARSE_NEXT: trailing bytes are not examined, and ARG0 and ARG1 then
describe them. The premise on MEM_SIZE is its range (00_scope R10). -/
def Obligations.ChunkParseNextCommand : Prop :=
  OnlyWordOf 0x26 .chunkParseNext ∧
  (∀ (s : State) ty data, s.cfg.wf = true → RecordAtSource s ty data →
    ∃ a n v : Word, exec .chunkParseNext s = .next (ended v { s with
        chType := packed ty, chLen := BitVec.ofNat 32 data.length, pl := data, chPresent := true,
        arg0 := a, arg1 := n }) ∧
      a.toNat = s.arg0.toNat + 12 + data.length ∧ n.toNat = s.arg1.toNat - (12 + data.length) ∧
      v.toNat = 12 + data.length) ∧
  ParseFailures .chunkParseNext 0x26 .lengthExceedsBuffer

/-- 43_chunk_codec R119, CHUNK_DATA. The premise `pl.length = chLen` is 43_chunk_codec R106. -/
def Obligations.ChunkDataCommand : Prop :=
  OnlyWordOf 0x27 .chunkData ∧
  (∀ s : State, s.mem.wf → s.chPresent = true → s.pl.length = s.chLen.toNat →
    DestInMem s s.chLen.toNat →
    ∃ m : Memory, exec .chunkData s = .next (ended s.chLen { s with mem := m }) ∧
      bytesAt m s.arg2.toNat s.chLen.toNat = s.pl ∧
      SameOutside s.mem m s.arg2.toNat s.chLen.toNat) ∧
  (∀ s : State, s.chPresent = false → exec .chunkData s = .next (faulted 0x27 .noChunk 0 s)) ∧
  (∀ s : State, s.chPresent = true → ¬ DestInMem s s.chLen.toNat →
    exec .chunkData s = .next (faulted 0x27 .memRange s.arg2 s))

/-- 43_chunk_codec R120, CHUNK_TYPE. -/
def Obligations.ChunkTypeCommand : Prop :=
  OnlyWordOf 0x28 .chunkType ∧
  (∀ s : State, s.chPresent = true →
    exec .chunkType s = .next (ended s.chType { s with ct := s.chType, ctPresent := true })) ∧
  (∀ s : State, s.chPresent = false → exec .chunkType s = .next (faulted 0x28 .noChunk 0 s))

/-- 43_chunk_codec R108: `ValidUpTo` is the length of the longest well-formed prefix, and a sequence is
well-formed exactly when that is all of it. -/
def Obligations.ValidUpToIsLongestPrefix : Prop :=
  ∀ s : List Byte, LongestTextPrefix s (validUpTo s) ∧
    (WellFormedText s ↔ validUpTo s = s.length)

/-- 43_chunk_codec R122: a chunk built from CT and a payload, serialized to any place that holds it and
parsed back with either parse command, is the chunk that was built. -/
def Obligations.SerializeParseRoundTrip : Prop :=
  ∀ (s : State) (d : Word), s.Inv → s.ctPresent = true → SourceInMem s →
    s.arg1.toNat ≤ s.cfg.payloadCap → d.toNat + 12 + s.arg1.toNat ≤ s.cfg.memSize →
    ∃ t u v x : State, exec .chunkNew s = .next t ∧
      exec .chunkSerialize { t with arg2 := d } = .next u ∧
      bytesAt u.mem d.toNat (12 + s.arg1.toNat) =
        wire (bytesOf s.ct) (bytesAt s.mem s.arg0.toNat s.arg1.toNat) ∧
      exec .chunkParse { u with arg0 := d, arg1 := 12 + s.arg1 } = .next v ∧
      v.err = none ∧ v.faultCode = s.faultCode ∧ v.result.toNat = 12 + s.arg1.toNat ∧
      v.chPresent = true ∧ v.chType = t.chType ∧ v.chLen = t.chLen ∧ v.pl = t.pl ∧
      exec .chunkParseNext { u with arg0 := d, arg1 := 12 + s.arg1 } = .next x ∧
      x.err = none ∧ x.faultCode = s.faultCode ∧ x.result.toNat = 12 + s.arg1.toNat ∧
      x.chPresent = true ∧ x.chType = t.chType ∧ x.chLen = t.chLen ∧ x.pl = t.pl ∧ x.arg1 = 0

/-- 43_chunk_codec R123: flipping any single bit of the payload or of the CRC field of a valid record
makes CHUNK_PARSE report CrcMismatch, and nothing else changes. -/
def Obligations.SingleBitTamperDetected : Prop :=
  ∀ (s : State) ty data x k, s.mem.wf → RecordAtSource s ty data →
    s.arg1.toNat = 12 + data.length → k < 8 →
    s.arg0.toNat + 8 ≤ x → x < s.arg0.toNat + 12 + data.length →
    let s' := { s with mem := s.mem.write x (s.mem.read x ^^^ BitVec.ofNat 8 (2 ^ k)) }
    ∃ i0 i1 : Word, i0 ≠ i1 ∧ exec .chunkParse s' = .next (errored .crcMismatch i0 i1 s')

/-- The streaming property of 43_chunk_codec R118 and R111: of two records back to back,
CHUNK_PARSE_NEXT twice recovers both in order with an empty remainder, and CHUNK_PARSE of the
whole reports TrailingData. -/
def Obligations.StreamOfTwoRecords : Prop :=
  ∀ (s : State) ty₁ data₁ ty₂ data₂, s.cfg.wf = true → SourceInMem s → TypeBytes ty₁ →
    TypeBytes ty₂ → data₁.length ≤ s.cfg.payloadCap → data₂.length ≤ s.cfg.payloadCap →
    s.arg1.toNat = (12 + data₁.length) + (12 + data₂.length) →
    bytesAt s.mem s.arg0.toNat s.arg1.toNat = wire ty₁ data₁ ++ wire ty₂ data₂ →
    ∃ t u : State, exec .chunkParseNext s = .next t ∧ exec .chunkParseNext t = .next u ∧
      t.err = none ∧ t.chType = packed ty₁ ∧ t.pl = data₁ ∧
      t.arg1.toNat = 12 + data₂.length ∧
      u.err = none ∧ u.chType = packed ty₂ ∧ u.pl = data₂ ∧ u.arg1 = 0 ∧
      u.arg0.toNat = s.arg0.toNat + s.arg1.toNat ∧
      exec .chunkParse s = .next (errored .trailingData (BitVec.ofNat 32 (12 + data₁.length))
        (BitVec.ofNat 32 (12 + data₂.length)) s)

/-! # The whole machine -/

/-- The invariant of the engine holds at `State.reset`, and at reset with any legal parameters and any
canonical `mem` of that size. -/
def Obligations.InvariantAtReset : Prop :=
  State.reset.Inv ∧
  ∀ (c : Config) (m : Memory), c.wf = true → m.wf → m.inside c.memSize → (State.resetWith c m).Inv

/-- Every step keeps the invariant (10_state R36, R39, 43_chunk_codec R106): `mem` stays canonical and
inside its size, a present CT and CH_TYPE hold letters, PL is CH_LEN ≤ PAYLOAD_CAP bytes, the error
and fault contexts are 0 without an error or fault, and the parameters stay in range. -/
def Obligations.StepKeepsInvariant : Prop :=
  ∀ s t : State, s.Inv → step s = .next t → t.Inv

/-- 60_exceptions R125, R127, R129: a command that fails changes nothing but the registers that report
the failure. -/
def Obligations.FailureIsAtomic : Prop :=
  ∀ (i : Instr) (s t : State), s.faultCode = none → exec i s = .next t →
    (t.faultCode ≠ none → t = { s with
      faultCode := t.faultCode, faultOpcode := i.opcode, faultInfo := t.faultInfo }) ∧
    (t.faultCode = none → t.err ≠ none → t = { s with
      err := t.err, errInfo0 := t.errInfo0, errInfo1 := t.errInfo1, result := 0 })

/-- 00_scope R19, 60_exceptions R125, R126, R129, R131: every command ends in exactly one of three
ways: a fault, with the error registers and RESULT left alone; an error, with RESULT = 0; or
success, with ERR and its context 0. -/
def Obligations.EveryCommandEndsOneWay : Prop :=
  ∀ (i : Instr) (s : State), s.faultCode = none → ∃ t, exec i s = .next t ∧
    ((t.faultCode ≠ none ∧ t.faultOpcode = i.opcode ∧ t.err = s.err ∧ t.errInfo0 = s.errInfo0 ∧
        t.errInfo1 = s.errInfo1 ∧ t.result = s.result) ∨
      (t.faultCode = none ∧ t.faultOpcode = s.faultOpcode ∧ t.faultInfo = s.faultInfo ∧
        t.err ≠ none ∧ t.result = 0) ∨
      (t.faultCode = none ∧ t.faultOpcode = s.faultOpcode ∧ t.faultInfo = s.faultInfo ∧
        t.err = none ∧ t.errInfo0 = 0 ∧ t.errInfo1 = 0))

/-- The register frame of all 23 commands (10_state R27, R33, R35, R38): CMD, ARG2, the parameters and
the host's side never change in `exec`; ARG0 and ARG1 only in CHUNK_PARSE_NEXT; CRC_ACC only in
CRC_INIT, CRC_UPDATE_BYTE and CRC_UPDATE; CT only in CT_NEW, CT_FROM_STRING and CHUNK_TYPE; the
chunk register only in CHUNK_NEW, CHUNK_PARSE and CHUNK_PARSE_NEXT. -/
def Obligations.RegisterFrame : Prop :=
  ∀ (i : Instr) (s t : State), exec i s = .next t →
    t.cmd = s.cmd ∧ t.arg2 = s.arg2 ∧ t.cfg = s.cfg ∧ t.pending = s.pending ∧
    t.replies = s.replies ∧ t.refusedMark = s.refusedMark ∧
    (i ≠ .chunkParseNext → t.arg0 = s.arg0 ∧ t.arg1 = s.arg1) ∧
    (i ≠ .crcInit → (∀ b, i ≠ .crcUpdateByte b) → i ≠ .crcUpdate → t.crcAcc = s.crcAcc) ∧
    (i ≠ .ctNew → i ≠ .ctFromString → i ≠ .chunkType →
      t.ct = s.ct ∧ t.ctPresent = s.ctPresent) ∧
    (i ≠ .chunkNew → i ≠ .chunkParse → i ≠ .chunkParseNext →
      t.chType = s.chType ∧ t.chLen = s.chLen ∧ t.pl = s.pl ∧ t.chPresent = s.chPresent)

/-- The memory frame of all 23 commands (20_memory R48, R54): every byte outside the destination range
at ARG2 reads as before, and every byte, for a command with no destination. -/
def Obligations.MemoryFrame : Prop :=
  ∀ (i : Instr) (s t : State) x, (s.chPresent = true → s.pl.length = s.chLen.toNat) →
    exec i s = .next t →
    (∀ n, dstLen s i = some n → x < s.arg2.toNat ∨ s.arg2.toNat + n ≤ x) →
    t.mem.read x = s.mem.read x

/-- 20_memory R54: what a command does to the registers and what it writes depends on no byte of `mem`
outside its source range, and on none at all for a command without one. -/
def Obligations.ReadsOnlySourceRange : Prop :=
  ∀ (i : Instr) (s t t' : State) (m : Memory),
    (usesSource i = true → ∀ x, s.arg0.toNat ≤ x → x < s.arg0.toNat + s.arg1.toNat →
      m.read x = s.mem.read x) →
    exec i s = .next t → exec i { s with mem := m } = .next t' →
    { t' with mem := t.mem } = t ∧
    (∀ x n, dstLen s i = some n → s.pl.length = s.chLen.toNat → s.mem.wf → m.wf →
      t.faultCode = none → t.err = none → s.arg2.toNat ≤ x → x < s.arg2.toNat + n →
      t'.mem.read x = t.mem.read x)

/-- 10_state R33, 43_chunk_codec R104: only the CRC commands look at CRC_ACC; every other command does
the same whatever it holds, and leaves it as it was. -/
def Obligations.CodecIgnoresCrcAcc : Prop :=
  ∀ (i : Instr) (s t t' : State) (v : Word), i ≠ .crcInit → (∀ b, i ≠ .crcUpdateByte b) →
    i ≠ .crcUpdate → i ≠ .crcGet → exec i s = .next t →
    exec i { s with crcAcc := v } = .next t' → t' = { t with crcAcc := v }

/-- 10_state R39: without a chunk the contents of PL cannot be observed. Two states that differ in PL
alone take the same step, to states that again differ in PL alone, or not at all. -/
def Obligations.PayloadUnobservableWithoutChunk : Prop :=
  ∀ (s t : State) (p : List Byte), s.chPresent = false → step s = .next t →
    ∃ t', step { s with pl := p } = .next t' ∧
      (t' = t ∨ (t.chPresent = false ∧ t' = { t with pl := p }))

/-- 10_state R35, R38, 00_scope R10 to R12: no step but reset clears CT_PRESENT or CH_PRESENT, and no
step at all changes the parameters. -/
def Obligations.OnlyResetClearsPresence : Prop :=
  ∀ s t : State, step s = .next t →
    t.cfg = s.cfg ∧
    (s.pending.head? ≠ some .assertReset →
      (s.ctPresent = true → t.ctPresent = true) ∧ (s.chPresent = true → t.chPresent = true))
end

