-- ==== Sys2Proof/Laws/Decode.lean ====
section
/-! SUPPORT. The laws of the command word: its fields as numbers, a word from its fields, and the one case
analysis of the decoder that later proofs cite (30_encoding R68 to R72). -/

namespace Sys2Proof

/-! ## Fields -/

theorem CommandWord.toNat_opcode (w : Word) : (CommandWord.opcode w).toNat = w.toNat % 256 := by
  simp [CommandWord.opcode, BitVec.extractLsb']

theorem CommandWord.toNat_imm (w : Word) : (CommandWord.imm w).toNat = w.toNat / 2 ^ 8 % 256 := by
  simp [CommandWord.imm, BitVec.extractLsb', Nat.shiftRight_eq_div_pow]

theorem CommandWord.toNat_reserved (w : Word) :
    (CommandWord.reserved w).toNat = w.toNat / 2 ^ 16 := by
  have := w.isLt
  simp only [CommandWord.reserved, BitVec.extractLsb', Nat.shiftRight_eq_div_pow,
    BitVec.toNat_ofNat]
  omega

theorem CommandWord.opcode_eq {w : Word} {op : Byte} :
    CommandWord.opcode w = op ↔ w.toNat % 256 = op.toNat := by
  rw [← BitVec.toNat_inj, CommandWord.toNat_opcode]

theorem CommandWord.imm_eq_zero {w : Word} :
    CommandWord.imm w = 0 ↔ w.toNat / 2 ^ 8 % 256 = 0 := by
  rw [← BitVec.toNat_inj, CommandWord.toNat_imm]
  rfl

theorem CommandWord.reserved_eq_zero {w : Word} :
    CommandWord.reserved w = 0 ↔ w.toNat / 2 ^ 16 = 0 := by
  rw [← BitVec.toNat_inj, CommandWord.toNat_reserved]
  rfl

/-- A word with RSV = 0 is its OPCODE and its IMM8 (30_encoding R68). -/
theorem CommandWord.eq_of_reserved {w : Word} (h : CommandWord.reserved w = 0) :
    w = (CommandWord.opcode w).setWidth 32 ||| ((CommandWord.imm w).setWidth 32 <<< 8) := by
  apply BitVec.eq_of_toNat_eq
  have h1 := CommandWord.toNat_opcode w
  have h2 := CommandWord.toNat_imm w
  have h3 := CommandWord.reserved_eq_zero.1 h
  have h4 := (CommandWord.opcode w).isLt
  have h5 := (CommandWord.imm w).isLt
  rw [BitVec.toNat_or, BitVec.toNat_shiftLeft, BitVec.toNat_setWidth, BitVec.toNat_setWidth,
    Nat.or_comm, Nat.shiftLeft_eq, Nat.mod_eq_of_lt (show (CommandWord.imm w).toNat < 2 ^ 32 by omega),
    Nat.mod_eq_of_lt (show (CommandWord.opcode w).toNat < 2 ^ 32 by omega),
    Nat.mod_eq_of_lt (show (CommandWord.imm w).toNat * 2 ^ 8 < 2 ^ 32 by omega), Nat.mul_comm,
    ← Nat.two_pow_add_eq_or_of_lt (by omega)]
  omega

/-! ## The decoder -/

/-- Every opcode but CRC_UPDATE_BYTE's is in the map exactly when 30_encoding R71 lists it. -/
theorem commandOf_isSome : ∀ op : Byte, op ≠ 0x02 → ((commandOf op).isSome = true ↔
    (0x01 ≤ op.toNat ∧ op.toNat ≤ 0x04) ∨ (0x10 ≤ op.toNat ∧ op.toNat ≤ 0x19) ∨
      (0x20 ≤ op.toNat ∧ op.toNat ≤ 0x28)) := by
  decide +kernel

/-- The map gives an opcode the command of that opcode, and none with an immediate. -/
theorem commandOf_eq_some {op : Byte} {i : Instr} (h : commandOf op = some i) :
    i.opcode = op ∧ i.imm8 = 0 := by
  have key : ∀ op : Byte,
      (commandOf op).all (fun i => decide (i.opcode = op) && decide (i.imm8 = 0)) = true := by
    decide +kernel
  have := key op
  rw [h] at this
  simpa using this

/-- Everything an accepted word can be (30_encoding R71, R72). -/
theorem decode_eq_ok {w : Word} {i : Instr} : decode w = .ok i ↔
    CommandWord.reserved w = 0 ∧
      ((CommandWord.opcode w = 0x02 ∧ i = .crcUpdateByte (CommandWord.imm w)) ∨
        (CommandWord.opcode w ≠ 0x02 ∧ CommandWord.imm w = 0 ∧
          commandOf (CommandWord.opcode w) = some i)) := by
  unfold decode
  by_cases hr : CommandWord.reserved w = 0
  · rw [if_pos hr]
    by_cases ho : CommandWord.opcode w = 0x02
    · rw [if_pos ho]
      constructor
      · intro h
        injection h with h
        exact ⟨hr, .inl ⟨ho, h.symm⟩⟩
      · rintro ⟨-, ⟨-, rfl⟩ | ⟨h, -⟩⟩
        · rfl
        · exact absurd ho h
    · rw [if_neg ho]
      constructor
      · intro h
        split at h
        · cases h
        · rename_i j hj
          split at h
          · rename_i hi
            injection h with h
            exact ⟨hr, .inr ⟨ho, hi, h ▸ hj⟩⟩
          · cases h
      · rintro ⟨-, ⟨h, -⟩ | ⟨-, hi, hj⟩⟩
        · exact absurd h ho
        · rw [hj]
          exact if_pos hi
  · rw [if_neg hr]
    exact ⟨nofun, fun h => absurd h.1 hr⟩

/-- A word is refused exactly when it is not accepted. -/
theorem decode_isError {w : Word} : (∃ e, decode w = .error e) ↔ ¬ ∃ i, decode w = .ok i := by
  cases decode w <;> simp

end Sys2Proof
end

