-- ==== Sys2Proof/Laws/Crc.lean ====
section
/-! SUPPORT. The laws of the CRC functions (41_crc R78 to R83): the fold over a concatenation, linearity of a
round, and that a step loses nothing: the accumulator is recovered from the next one and the byte. -/

namespace Sys2Proof.Machine

/-! ## The fold -/

/-- `CrcFold` is the left fold of `CrcStep` (41_crc R80). -/
theorem crcFold_eq_foldl (acc : Word) (s : List Byte) : crcFold acc s = s.foldl crcStep acc := by
  induction s generalizing acc with
  | nil => rfl
  | cons b s ih => exact ih (crcStep acc b)

/-- `CrcFold` over a concatenation (41_crc R82). -/
theorem crcFold_append (acc : Word) (s t : List Byte) :
    crcFold acc (s ++ t) = crcFold (crcFold acc s) t := by
  rw [crcFold_eq_foldl, crcFold_eq_foldl, crcFold_eq_foldl, List.foldl_append]

theorem crc32_eq_foldl (s : List Byte) : crc32 s = ~~~ s.foldl crcStep 0xFFFFFFFF := by
  rw [crc32, crcFold_eq_foldl]

/-! ## Rounds -/

/-- A round on a value whose low bit is 0 shifts. -/
theorem crcRound_even {v : Word} (h : v.getLsbD 0 = false) : crcRound v = v >>> 1 := by
  rw [crcRound, if_neg (by rw [h]; simp)]

/-- A round is linear over exclusive or. -/
theorem crcRound_xor (v w : Word) : crcRound (v ^^^ w) = crcRound v ^^^ crcRound w := by
  have hc : ∀ a b c : Word, a ^^^ c ^^^ (b ^^^ c) = a ^^^ b := fun a b c => by
    rw [show a ^^^ c ^^^ (b ^^^ c) = a ^^^ b ^^^ (c ^^^ c) by ac_rfl, BitVec.xor_self,
      BitVec.xor_zero]
  unfold crcRound
  rw [BitVec.getLsbD_xor, BitVec.ushiftRight_xor_distrib]
  cases v.getLsbD 0 <;> cases w.getLsbD 0
  · rfl
  · exact BitVec.xor_assoc ..
  · simp only [Bool.xor_false, if_true, if_false, Bool.false_eq_true]
    ac_rfl
  · exact (hc _ _ _).symm

/-- Rounds are linear over exclusive or. -/
theorem crcRounds_xor (k : Nat) (v w : Word) :
    crcRounds k (v ^^^ w) = crcRounds k v ^^^ crcRounds k w := by
  induction k generalizing v w with
  | zero => rfl
  | succ k ih => rw [crcRounds, crcRound_xor, ih]; rfl

/-- `k` rounds on a value whose low `k` bits are 0 shift by `k`. -/
theorem crcRounds_of_low_zero (k : Nat) {v : Word} (h : ∀ i, i < k → v.getLsbD i = false) :
    crcRounds k v = v >>> k := by
  induction k generalizing v with
  | zero => simp [crcRounds]
  | succ k ih =>
    rw [crcRounds, crcRound_even (h 0 (by omega)), ih, ← BitVec.shiftRight_add, Nat.add_comm]
    intro i hi
    rw [BitVec.getLsbD_ushiftRight]
    exact h _ (by omega)

/-! ## The table -/

/-- The table is linear over exclusive or. -/
theorem crcTable_xor (i j : Byte) : crcTable (i ^^^ j) = crcTable i ^^^ crcTable j := by
  rw [crcTable, crcTable, crcTable, tableEntry, tableEntry, tableEntry, ← crcRounds_xor,
    BitVec.setWidth_xor]

/-- Only entry 0 of the table has a zero top byte. -/
theorem crcTable_top_zero : ∀ i : Byte, crcTable i >>> 24 = 0 → i = 0 := by decide +kernel

/-- Two entries with the same top byte are the same entry. -/
theorem crcTable_top_inj {i j : Byte} (h : crcTable i >>> 24 = crcTable j >>> 24) : i = j := by
  have h0 : crcTable (i ^^^ j) >>> 24 = 0 := by
    rw [crcTable_xor, BitVec.ushiftRight_xor_distrib, h, BitVec.xor_self]
    rfl
  have := crcTable_top_zero _ h0
  exact BitVec.xor_eq_zero_iff.1 this

/-! ## The step -/

/-- The table index of a step: the low byte of the accumulator, exclusive or the byte. -/
theorem crcStep_eq (acc : Word) (b : Byte) :
    crcStep acc b = crcTable (acc.setWidth 8 ^^^ b) ^^^ (acc >>> 8) := by
  rw [crcStep]
  congr 2
  apply BitVec.eq_of_getLsbD_eq
  intro i hi
  have h255 : ∀ i, i < 8 → (0xFF : Word).getLsbD i = true := by decide
  simp only [BitVec.getLsbD_setWidth, BitVec.getLsbD_and, BitVec.getLsbD_xor, h255 i hi, hi,
    show i < 32 by omega, decide_true, Bool.true_and, Bool.and_true]

/-- Equal steps have the same table index and the same accumulator above the low byte. -/
theorem crcStep_eq_imp {acc acc' : Word} {b b' : Byte} (h : crcStep acc b = crcStep acc' b') :
    acc.setWidth 8 ^^^ b = acc'.setWidth 8 ^^^ b' ∧ acc >>> 8 = acc' >>> 8 := by
  rw [crcStep_eq, crcStep_eq] at h
  have hz : ∀ v : Word, v >>> 32 = 0 := fun v => BitVec.eq_of_toNat_eq (by
    have := v.isLt
    simp [Nat.shiftRight_eq_div_pow]
    exact this)
  have ht : crcTable (acc.setWidth 8 ^^^ b) >>> 24 = crcTable (acc'.setWidth 8 ^^^ b') >>> 24 := by
    have := congrArg (fun v : Word => v >>> 24) h
    simp only [BitVec.ushiftRight_xor_distrib, ← BitVec.shiftRight_add] at this
    simpa [hz] using this
  have hi := crcTable_top_inj ht
  refine ⟨hi, ?_⟩
  rw [hi] at h
  exact (BitVec.xor_right_inj _).1 h

/-- From the next accumulator and the byte the accumulator is recovered. -/
theorem crcStep_inj {acc acc' : Word} {b : Byte} (h : crcStep acc b = crcStep acc' b) :
    acc = acc' := by
  obtain ⟨hl, hh⟩ := crcStep_eq_imp h
  have hl : acc.setWidth 8 = acc'.setWidth 8 := (BitVec.xor_left_inj _).1 hl
  apply BitVec.eq_of_getLsbD_eq
  intro i hi
  rcases lt_or_ge i 8 with h8 | h8
  · have := congrArg (·.getLsbD i) hl
    simpa [h8] using this
  · have := congrArg (·.getLsbD (i - 8)) hh
    simpa [show 8 + (i - 8) = i by omega] using this

/-- Different bytes give different steps. -/
theorem crcStep_byte_ne {acc : Word} {b b' : Byte} (h : b ≠ b') : crcStep acc b ≠ crcStep acc b' := by
  intro he
  exact h ((BitVec.xor_right_inj _).1 (crcStep_eq_imp he).1)

/-- From the final accumulator and the bytes the first accumulator is recovered. -/
theorem crcFold_inj {acc acc' : Word} {s : List Byte} (h : crcFold acc s = crcFold acc' s) :
    acc = acc' := by
  induction s generalizing acc acc' with
  | nil => exact h
  | cons b s ih => exact crcStep_inj (ih h)

/-- Two sequences that differ in one byte have different CRCs. -/
theorem crc32_one_byte_ne (s t : List Byte) {b b' : Byte} (h : b ≠ b') :
    crc32 (s ++ b :: t) ≠ crc32 (s ++ b' :: t) := by
  intro he
  have he := congrArg (fun v : Word => ~~~v) he
  simp only [crc32, BitVec.not_not, crcFold_append] at he
  exact crcStep_byte_ne h (crcFold_inj he)

end Sys2Proof.Machine
end

