-- ==== Sys2Proof/Laws/Memory.lean ====
section
/-! SUPPORT. The laws of `mem`: read after write, what a write leaves alone, the canonical form kept by
every operation, ranges of bytes read and written, and equality of memories in canonical form. -/

namespace Sys2Proof.Machine.Memory

variable {m : Memory} {a b n : Nat} {v : Byte}

@[simp] theorem read_nil (a : Nat) : Memory.read [] a = Memory.unlisted := rfl

theorem read_cons (k : Nat) (v : Byte) (m : Memory) (a : Nat) :
    Memory.read ((k, v) :: m) a = if k = a then v else Memory.read m a := rfl

/-- An address below every listed one reads as unlisted. -/
theorem read_of_lt_all (h : ∀ c ∈ m, a < c.1) : m.read a = Memory.unlisted := by
  induction m with
  | nil => rfl
  | cons c m ih =>
    obtain ⟨k, v⟩ := c
    have hk : a < k := h (k, v) (by simp)
    rw [read_cons, if_neg (by omega)]
    exact ih fun c hc => h c (by simp [hc])

/-- The addresses of a list that has been written to. -/
theorem mem_write {c : Host.Cell} (h : c ∈ m.write a v) : c ∈ m ∨ (c = (a, v) ∧ v ≠ unlisted) := by
  induction m with
  | nil =>
    by_cases hv : v = unlisted
    · simp [write, hv] at h
    · simp [write, hv] at h
      exact .inr ⟨h, hv⟩
  | cons d m ih =>
    obtain ⟨k, w⟩ := d
    simp only [write] at h
    split at h
    · rcases List.mem_cons.1 h with h | h
      · exact .inl (by simp [h])
      · rcases ih h with h | h
        · exact .inl (by simp [h])
        · exact .inr h
    · split at h
      · split at h
        · exact .inl (by simp [h])
        · rename_i hv
          rcases List.mem_cons.1 h with h | h
          · exact .inr ⟨h, hv⟩
          · exact .inl (by simp [h])
      · split at h
        · exact .inl h
        · rename_i hv
          rcases List.mem_cons.1 h with h | h
          · exact .inr ⟨h, hv⟩
          · exact .inl h

/-- The tail of a canonical list is canonical, and its head lies below it. -/
theorem wf_cons {c : Host.Cell} :
    wf (c :: m) ↔ c.2 ≠ unlisted ∧ (∀ d ∈ m, c.1 < d.1) ∧ m.wf := by
  simp only [wf, List.pairwise_cons, List.forall_mem_cons]
  tauto

/-- A write keeps the canonical form. -/
theorem wf_write (h : m.wf) (a : Nat) (v : Byte) : (m.write a v).wf := by
  induction m with
  | nil =>
    by_cases hv : v = unlisted <;> simp [write, hv, wf]
  | cons c m ih =>
    obtain ⟨k, w⟩ := c
    obtain ⟨hw, hlt, hm⟩ := wf_cons.1 h
    simp only [write]
    split
    · rename_i hk
      refine wf_cons.2 ⟨hw, fun d hd => ?_, ih hm⟩
      rcases mem_write hd with hd | ⟨rfl, -⟩
      · exact hlt d hd
      · exact hk
    · split
      · rename_i hk
        split
        · exact hm
        · rename_i hv
          exact wf_cons.2 ⟨hv, fun d hd => by have := hlt d hd; simp only at this ⊢; omega, hm⟩
      · split
        · exact h
        · rename_i hv
          refine wf_cons.2 ⟨hv, fun d hd => ?_, h⟩
          rcases List.mem_cons.1 hd with rfl | hd
          · simp only; omega
          · have := hlt d hd; simp only at this ⊢; omega

/-- A write inside the address space lists no address outside it. -/
theorem inside_write (h : m.inside n) (ha : a < n) (v : Byte) : (m.write a v).inside n := by
  intro c hc
  rcases mem_write hc with hc | ⟨rfl, -⟩
  · exact h c hc
  · exact ha

/-- A read after a write to the same address, on a canonical list. -/
theorem read_write_same (h : m.wf) (a : Nat) (v : Byte) : (m.write a v).read a = v := by
  induction m with
  | nil =>
    by_cases hv : v = unlisted <;> simp [write, hv, read_cons]
  | cons c m ih =>
    obtain ⟨k, w⟩ := c
    obtain ⟨-, hlt, hm⟩ := wf_cons.1 h
    simp only [write]
    split
    · rw [read_cons, if_neg (by omega)]
      exact ih hm
    · split
      · rename_i hk
        split
        · rename_i hv
          rw [hv]
          exact read_of_lt_all fun d hd => by have := hlt d hd; simp only at this; omega
        · rw [read_cons, if_pos rfl]
      · split
        · rename_i hv
          rw [hv]
          refine read_of_lt_all fun d hd => ?_
          rcases List.mem_cons.1 hd with rfl | hd
          · simp only; omega
          · have := hlt d hd; simp only at this; omega
        · rw [read_cons, if_pos rfl]

/-- A write leaves every other address alone, on any list. -/
theorem read_write_other (hab : a ≠ b) (m : Memory) (v : Byte) :
    (m.write a v).read b = m.read b := by
  induction m with
  | nil =>
    by_cases hv : v = unlisted <;> simp [write, hv, read_cons, hab]
  | cons c m ih =>
    obtain ⟨k, w⟩ := c
    simp only [write]
    split
    · rw [read_cons, read_cons, ih]
    · split
      · rename_i hk
        subst hk
        split <;> simp [read_cons, hab]
      · split
        · rfl
        · simp [read_cons, hab]

/-- A read after a write, on a canonical list. -/
theorem read_write (h : m.wf) (a b : Nat) (v : Byte) :
    (m.write a v).read b = if a = b then v else m.read b := by
  split
  · rename_i hab
    rw [← hab, read_write_same h]
  · rename_i hab
    exact read_write_other hab m v

/-- Two canonical memories that read alike everywhere are equal. -/
theorem eq_of_read_eq {m m' : Memory} (h : m.wf) (h' : m'.wf) (hr : ∀ a, m.read a = m'.read a) :
    m = m' := by
  induction m generalizing m' with
  | nil =>
    cases m' with
    | nil => rfl
    | cons c m' =>
      obtain ⟨k, v⟩ := c
      have := hr k
      rw [read_cons, if_pos rfl] at this
      exact absurd this.symm (wf_cons.1 h').1
  | cons c m ih =>
    obtain ⟨k, v⟩ := c
    obtain ⟨hv, hlt, hm⟩ := wf_cons.1 h
    cases m' with
    | nil =>
      have := hr k
      rw [read_cons, if_pos rfl] at this
      exact absurd this hv
    | cons c' m' =>
      obtain ⟨k', v'⟩ := c'
      obtain ⟨hv', hlt', hm'⟩ := wf_cons.1 h'
      have hk : k = k' := by
        rcases Nat.lt_trichotomy k k' with hk | hk | hk
        · have := hr k
          rw [read_cons, if_pos rfl, read_of_lt_all] at this
          · exact absurd this hv
          · intro d hd
            rcases List.mem_cons.1 hd with rfl | hd
            · exact hk
            · have := hlt' d hd; simp only at this; omega
        · exact hk
        · have := hr k'
          rw [read_cons (m := m'), if_pos rfl, read_of_lt_all] at this
          · exact absurd this.symm hv'
          · intro d hd
            rcases List.mem_cons.1 hd with rfl | hd
            · exact hk
            · have := hlt d hd; simp only at this; omega
      subst hk
      have hvv : v = v' := by simpa [read_cons] using hr k
      subst hvv
      congr 1
      refine ih hm hm' fun a => ?_
      rcases eq_or_ne k a with rfl | hka
      · rw [read_of_lt_all fun d hd => by have := hlt d hd; simp only at this; exact this,
          read_of_lt_all fun d hd => by have := hlt' d hd; simp only at this; exact this]
      · simpa [read_cons, hka] using hr a

/-! ## Ranges -/

@[simp] theorem readBytes_zero (m : Memory) (a : Nat) : m.readBytes a 0 = [] := rfl

theorem readBytes_succ (m : Memory) (a n : Nat) :
    m.readBytes a (n + 1) = m.read a :: m.readBytes (a + 1) n := rfl

@[simp] theorem length_readBytes (m : Memory) (a n : Nat) : (m.readBytes a n).length = n := by
  induction n generalizing a with
  | zero => rfl
  | succ n ih => simp [readBytes_succ, ih]

theorem readBytes_add (m : Memory) (a n k : Nat) :
    m.readBytes a (n + k) = m.readBytes a n ++ m.readBytes (a + n) k := by
  induction n generalizing a with
  | zero => simp
  | succ n ih =>
    rw [Nat.succ_add, readBytes_succ, readBytes_succ, ih, List.cons_append]
    congr 3
    omega

/-- `MemRead` byte by byte (20_memory R47). -/
theorem readBytes_eq_map (m : Memory) (a n : Nat) :
    m.readBytes a n = (List.range n).map fun k => m.read (a + k) := by
  induction n generalizing a with
  | zero => rfl
  | succ n ih =>
    rw [readBytes_succ, ih, List.range_succ_eq_map, List.map_cons, List.map_map]
    refine congrArg₂ _ (by simp) (List.map_congr_left fun k _ => ?_)
    simp only [Function.comp_apply]
    congr 1
    omega

/-- `MemRead` depends on the bytes of its range alone. -/
theorem readBytes_congr {m m' : Memory} (h : ∀ x, a ≤ x → x < a + n → m.read x = m'.read x) :
    m.readBytes a n = m'.readBytes a n := by
  rw [readBytes_eq_map, readBytes_eq_map]
  refine List.map_congr_left fun k hk => h _ (by omega) ?_
  have := List.mem_range.1 hk
  omega

@[simp] theorem writeBytes_nil (m : Memory) (a : Nat) : m.writeBytes a [] = m := rfl

theorem writeBytes_cons (m : Memory) (a : Nat) (b : Byte) (bs : List Byte) :
    m.writeBytes a (b :: bs) = (m.write a b).writeBytes (a + 1) bs := rfl

/-- `MemWrite` keeps the canonical form. -/
theorem wf_writeBytes (h : m.wf) (a : Nat) (bs : List Byte) : (m.writeBytes a bs).wf := by
  induction bs generalizing m a with
  | nil => exact h
  | cons b bs ih => exact ih (wf_write h a b) (a + 1)

/-- `MemWrite` inside the address space lists no address outside it. -/
theorem inside_writeBytes (h : m.inside n) (bs : List Byte) (ha : a + bs.length ≤ n) :
    (m.writeBytes a bs).inside n := by
  induction bs generalizing m a with
  | nil => exact h
  | cons b bs ih =>
    rw [List.length_cons] at ha
    exact ih (inside_write h (by omega) b) (by omega)

/-- `MemWrite` changes no other byte (20_memory R48). -/
theorem read_writeBytes_outside (m : Memory) (bs : List Byte)
    (h : b < a ∨ a + bs.length ≤ b) : (m.writeBytes a bs).read b = m.read b := by
  induction bs generalizing m a with
  | nil => rfl
  | cons c bs ih =>
    rw [List.length_cons] at h
    rw [writeBytes_cons, ih _ (by omega), read_write_other (by omega)]

/-- `MemRead` after `MemWrite` of the same range (20_memory R47, R48). -/
theorem readBytes_writeBytes_same (h : m.wf) (a : Nat) (bs : List Byte) :
    (m.writeBytes a bs).readBytes a bs.length = bs := by
  induction bs generalizing m a with
  | nil => rfl
  | cons b bs ih =>
    rw [List.length_cons, readBytes_succ, writeBytes_cons, ih (wf_write h a b),
      read_writeBytes_outside _ _ (by omega), read_write_same h]

/-- `MemRead` of a range a `MemWrite` did not touch. -/
theorem readBytes_writeBytes_disjoint (m : Memory) (bs : List Byte)
    (h : b + n ≤ a ∨ a + bs.length ≤ b) : (m.writeBytes a bs).readBytes b n = m.readBytes b n :=
  readBytes_congr fun _ _ _ => read_writeBytes_outside m bs (by omega)

end Sys2Proof.Machine.Memory
end

