-- ==== Sys2Proof/Laws/State.lean ====
section
/-! SUPPORT. What each named update does to each field of State, one lemma a field, so that no proof
unfolds a record update. -/

namespace Sys2Proof.Machine.State

variable (s : State)

/-! ### `complete(v)` (60_exceptions R126) -/

@[simp] theorem complete_cmd (v : Word) : (s.complete v).cmd = s.cmd := rfl
@[simp] theorem complete_arg0 (v : Word) : (s.complete v).arg0 = s.arg0 := rfl
@[simp] theorem complete_arg1 (v : Word) : (s.complete v).arg1 = s.arg1 := rfl
@[simp] theorem complete_arg2 (v : Word) : (s.complete v).arg2 = s.arg2 := rfl
@[simp] theorem complete_result (v : Word) : (s.complete v).result = v := rfl
@[simp] theorem complete_err (v : Word) : (s.complete v).err = none := rfl
@[simp] theorem complete_errInfo0 (v : Word) : (s.complete v).errInfo0 = 0 := rfl
@[simp] theorem complete_errInfo1 (v : Word) : (s.complete v).errInfo1 = 0 := rfl
@[simp] theorem complete_faultCode (v : Word) : (s.complete v).faultCode = s.faultCode := rfl
@[simp] theorem complete_faultOpcode (v : Word) : (s.complete v).faultOpcode = s.faultOpcode := rfl
@[simp] theorem complete_faultInfo (v : Word) : (s.complete v).faultInfo = s.faultInfo := rfl
@[simp] theorem complete_crcAcc (v : Word) : (s.complete v).crcAcc = s.crcAcc := rfl
@[simp] theorem complete_ct (v : Word) : (s.complete v).ct = s.ct := rfl
@[simp] theorem complete_ctPresent (v : Word) : (s.complete v).ctPresent = s.ctPresent := rfl
@[simp] theorem complete_chType (v : Word) : (s.complete v).chType = s.chType := rfl
@[simp] theorem complete_chLen (v : Word) : (s.complete v).chLen = s.chLen := rfl
@[simp] theorem complete_chPresent (v : Word) : (s.complete v).chPresent = s.chPresent := rfl
@[simp] theorem complete_pl (v : Word) : (s.complete v).pl = s.pl := rfl
@[simp] theorem complete_mem (v : Word) : (s.complete v).mem = s.mem := rfl
@[simp] theorem complete_cfg (v : Word) : (s.complete v).cfg = s.cfg := rfl
@[simp] theorem complete_pending (v : Word) : (s.complete v).pending = s.pending := rfl
@[simp] theorem complete_replies (v : Word) : (s.complete v).replies = s.replies := rfl
@[simp] theorem complete_refusedMark (v : Word) : (s.complete v).refusedMark = s.refusedMark := rfl

/-! ### `raise Error` (60_exceptions R125) -/

@[simp] theorem raiseError_cmd (k : ErrKind) (i0 i1 : Word) :
    (s.raiseError k i0 i1).cmd = s.cmd := rfl
@[simp] theorem raiseError_arg0 (k : ErrKind) (i0 i1 : Word) :
    (s.raiseError k i0 i1).arg0 = s.arg0 := rfl
@[simp] theorem raiseError_arg1 (k : ErrKind) (i0 i1 : Word) :
    (s.raiseError k i0 i1).arg1 = s.arg1 := rfl
@[simp] theorem raiseError_arg2 (k : ErrKind) (i0 i1 : Word) :
    (s.raiseError k i0 i1).arg2 = s.arg2 := rfl
@[simp] theorem raiseError_result (k : ErrKind) (i0 i1 : Word) :
    (s.raiseError k i0 i1).result = 0 := rfl
@[simp] theorem raiseError_err (k : ErrKind) (i0 i1 : Word) :
    (s.raiseError k i0 i1).err = some k := rfl
@[simp] theorem raiseError_errInfo0 (k : ErrKind) (i0 i1 : Word) :
    (s.raiseError k i0 i1).errInfo0 = i0 := rfl
@[simp] theorem raiseError_errInfo1 (k : ErrKind) (i0 i1 : Word) :
    (s.raiseError k i0 i1).errInfo1 = i1 := rfl
@[simp] theorem raiseError_faultCode (k : ErrKind) (i0 i1 : Word) :
    (s.raiseError k i0 i1).faultCode = s.faultCode := rfl
@[simp] theorem raiseError_faultOpcode (k : ErrKind) (i0 i1 : Word) :
    (s.raiseError k i0 i1).faultOpcode = s.faultOpcode := rfl
@[simp] theorem raiseError_faultInfo (k : ErrKind) (i0 i1 : Word) :
    (s.raiseError k i0 i1).faultInfo = s.faultInfo := rfl
@[simp] theorem raiseError_crcAcc (k : ErrKind) (i0 i1 : Word) :
    (s.raiseError k i0 i1).crcAcc = s.crcAcc := rfl
@[simp] theorem raiseError_ct (k : ErrKind) (i0 i1 : Word) : (s.raiseError k i0 i1).ct = s.ct := rfl
@[simp] theorem raiseError_ctPresent (k : ErrKind) (i0 i1 : Word) :
    (s.raiseError k i0 i1).ctPresent = s.ctPresent := rfl
@[simp] theorem raiseError_chType (k : ErrKind) (i0 i1 : Word) :
    (s.raiseError k i0 i1).chType = s.chType := rfl
@[simp] theorem raiseError_chLen (k : ErrKind) (i0 i1 : Word) :
    (s.raiseError k i0 i1).chLen = s.chLen := rfl
@[simp] theorem raiseError_chPresent (k : ErrKind) (i0 i1 : Word) :
    (s.raiseError k i0 i1).chPresent = s.chPresent := rfl
@[simp] theorem raiseError_pl (k : ErrKind) (i0 i1 : Word) : (s.raiseError k i0 i1).pl = s.pl := rfl
@[simp] theorem raiseError_mem (k : ErrKind) (i0 i1 : Word) :
    (s.raiseError k i0 i1).mem = s.mem := rfl
@[simp] theorem raiseError_cfg (k : ErrKind) (i0 i1 : Word) :
    (s.raiseError k i0 i1).cfg = s.cfg := rfl
@[simp] theorem raiseError_pending (k : ErrKind) (i0 i1 : Word) :
    (s.raiseError k i0 i1).pending = s.pending := rfl
@[simp] theorem raiseError_replies (k : ErrKind) (i0 i1 : Word) :
    (s.raiseError k i0 i1).replies = s.replies := rfl
@[simp] theorem raiseError_refusedMark (k : ErrKind) (i0 i1 : Word) :
    (s.raiseError k i0 i1).refusedMark = s.refusedMark := rfl

/-! ### `raise Fault` (60_exceptions R129) -/

@[simp] theorem raiseFault_cmd (op : Byte) (c : FaultCode) (info : Word) :
    (s.raiseFault op c info).cmd = s.cmd := rfl
@[simp] theorem raiseFault_arg0 (op : Byte) (c : FaultCode) (info : Word) :
    (s.raiseFault op c info).arg0 = s.arg0 := rfl
@[simp] theorem raiseFault_arg1 (op : Byte) (c : FaultCode) (info : Word) :
    (s.raiseFault op c info).arg1 = s.arg1 := rfl
@[simp] theorem raiseFault_arg2 (op : Byte) (c : FaultCode) (info : Word) :
    (s.raiseFault op c info).arg2 = s.arg2 := rfl
@[simp] theorem raiseFault_result (op : Byte) (c : FaultCode) (info : Word) :
    (s.raiseFault op c info).result = s.result := rfl
@[simp] theorem raiseFault_err (op : Byte) (c : FaultCode) (info : Word) :
    (s.raiseFault op c info).err = s.err := rfl
@[simp] theorem raiseFault_errInfo0 (op : Byte) (c : FaultCode) (info : Word) :
    (s.raiseFault op c info).errInfo0 = s.errInfo0 := rfl
@[simp] theorem raiseFault_errInfo1 (op : Byte) (c : FaultCode) (info : Word) :
    (s.raiseFault op c info).errInfo1 = s.errInfo1 := rfl
@[simp] theorem raiseFault_faultCode (op : Byte) (c : FaultCode) (info : Word) :
    (s.raiseFault op c info).faultCode = some c := rfl
@[simp] theorem raiseFault_faultOpcode (op : Byte) (c : FaultCode) (info : Word) :
    (s.raiseFault op c info).faultOpcode = op := rfl
@[simp] theorem raiseFault_faultInfo (op : Byte) (c : FaultCode) (info : Word) :
    (s.raiseFault op c info).faultInfo = info := rfl
@[simp] theorem raiseFault_crcAcc (op : Byte) (c : FaultCode) (info : Word) :
    (s.raiseFault op c info).crcAcc = s.crcAcc := rfl
@[simp] theorem raiseFault_ct (op : Byte) (c : FaultCode) (info : Word) :
    (s.raiseFault op c info).ct = s.ct := rfl
@[simp] theorem raiseFault_ctPresent (op : Byte) (c : FaultCode) (info : Word) :
    (s.raiseFault op c info).ctPresent = s.ctPresent := rfl
@[simp] theorem raiseFault_chType (op : Byte) (c : FaultCode) (info : Word) :
    (s.raiseFault op c info).chType = s.chType := rfl
@[simp] theorem raiseFault_chLen (op : Byte) (c : FaultCode) (info : Word) :
    (s.raiseFault op c info).chLen = s.chLen := rfl
@[simp] theorem raiseFault_chPresent (op : Byte) (c : FaultCode) (info : Word) :
    (s.raiseFault op c info).chPresent = s.chPresent := rfl
@[simp] theorem raiseFault_pl (op : Byte) (c : FaultCode) (info : Word) :
    (s.raiseFault op c info).pl = s.pl := rfl
@[simp] theorem raiseFault_mem (op : Byte) (c : FaultCode) (info : Word) :
    (s.raiseFault op c info).mem = s.mem := rfl
@[simp] theorem raiseFault_cfg (op : Byte) (c : FaultCode) (info : Word) :
    (s.raiseFault op c info).cfg = s.cfg := rfl
@[simp] theorem raiseFault_pending (op : Byte) (c : FaultCode) (info : Word) :
    (s.raiseFault op c info).pending = s.pending := rfl
@[simp] theorem raiseFault_replies (op : Byte) (c : FaultCode) (info : Word) :
    (s.raiseFault op c info).replies = s.replies := rfl
@[simp] theorem raiseFault_refusedMark (op : Byte) (c : FaultCode) (info : Word) :
    (s.raiseFault op c info).refusedMark = s.refusedMark := rfl

/-! ### reset (70_reset_and_hazards R141) -/

@[simp] theorem engineReset_cmd : s.engineReset.cmd = 0 := rfl
@[simp] theorem engineReset_arg0 : s.engineReset.arg0 = 0 := rfl
@[simp] theorem engineReset_arg1 : s.engineReset.arg1 = 0 := rfl
@[simp] theorem engineReset_arg2 : s.engineReset.arg2 = 0 := rfl
@[simp] theorem engineReset_result : s.engineReset.result = 0 := rfl
@[simp] theorem engineReset_err : s.engineReset.err = none := rfl
@[simp] theorem engineReset_errInfo0 : s.engineReset.errInfo0 = 0 := rfl
@[simp] theorem engineReset_errInfo1 : s.engineReset.errInfo1 = 0 := rfl
@[simp] theorem engineReset_faultCode : s.engineReset.faultCode = none := rfl
@[simp] theorem engineReset_faultOpcode : s.engineReset.faultOpcode = 0 := rfl
@[simp] theorem engineReset_faultInfo : s.engineReset.faultInfo = 0 := rfl
@[simp] theorem engineReset_crcAcc : s.engineReset.crcAcc = 0xFFFFFFFF := rfl
@[simp] theorem engineReset_ct : s.engineReset.ct = 0 := rfl
@[simp] theorem engineReset_ctPresent : s.engineReset.ctPresent = false := rfl
@[simp] theorem engineReset_chType : s.engineReset.chType = 0 := rfl
@[simp] theorem engineReset_chLen : s.engineReset.chLen = 0 := rfl
@[simp] theorem engineReset_chPresent : s.engineReset.chPresent = false := rfl
@[simp] theorem engineReset_pl : s.engineReset.pl = [] := rfl
@[simp] theorem engineReset_mem : s.engineReset.mem = s.mem := rfl
@[simp] theorem engineReset_cfg : s.engineReset.cfg = s.cfg := rfl
@[simp] theorem engineReset_pending : s.engineReset.pending = s.pending := rfl
@[simp] theorem engineReset_replies : s.engineReset.replies = s.replies := rfl
@[simp] theorem engineReset_refusedMark : s.engineReset.refusedMark = s.refusedMark := rfl

/-! ### a write of CRC_ACC -/

@[simp] theorem putCrcAcc_cmd (v : Word) : (s.putCrcAcc v).cmd = s.cmd := rfl
@[simp] theorem putCrcAcc_arg0 (v : Word) : (s.putCrcAcc v).arg0 = s.arg0 := rfl
@[simp] theorem putCrcAcc_arg1 (v : Word) : (s.putCrcAcc v).arg1 = s.arg1 := rfl
@[simp] theorem putCrcAcc_arg2 (v : Word) : (s.putCrcAcc v).arg2 = s.arg2 := rfl
@[simp] theorem putCrcAcc_result (v : Word) : (s.putCrcAcc v).result = s.result := rfl
@[simp] theorem putCrcAcc_err (v : Word) : (s.putCrcAcc v).err = s.err := rfl
@[simp] theorem putCrcAcc_errInfo0 (v : Word) : (s.putCrcAcc v).errInfo0 = s.errInfo0 := rfl
@[simp] theorem putCrcAcc_errInfo1 (v : Word) : (s.putCrcAcc v).errInfo1 = s.errInfo1 := rfl
@[simp] theorem putCrcAcc_faultCode (v : Word) : (s.putCrcAcc v).faultCode = s.faultCode := rfl
@[simp] theorem putCrcAcc_faultOpcode (v : Word) :
    (s.putCrcAcc v).faultOpcode = s.faultOpcode := rfl
@[simp] theorem putCrcAcc_faultInfo (v : Word) : (s.putCrcAcc v).faultInfo = s.faultInfo := rfl
@[simp] theorem putCrcAcc_crcAcc (v : Word) : (s.putCrcAcc v).crcAcc = v := rfl
@[simp] theorem putCrcAcc_ct (v : Word) : (s.putCrcAcc v).ct = s.ct := rfl
@[simp] theorem putCrcAcc_ctPresent (v : Word) : (s.putCrcAcc v).ctPresent = s.ctPresent := rfl
@[simp] theorem putCrcAcc_chType (v : Word) : (s.putCrcAcc v).chType = s.chType := rfl
@[simp] theorem putCrcAcc_chLen (v : Word) : (s.putCrcAcc v).chLen = s.chLen := rfl
@[simp] theorem putCrcAcc_chPresent (v : Word) : (s.putCrcAcc v).chPresent = s.chPresent := rfl
@[simp] theorem putCrcAcc_pl (v : Word) : (s.putCrcAcc v).pl = s.pl := rfl
@[simp] theorem putCrcAcc_mem (v : Word) : (s.putCrcAcc v).mem = s.mem := rfl
@[simp] theorem putCrcAcc_cfg (v : Word) : (s.putCrcAcc v).cfg = s.cfg := rfl
@[simp] theorem putCrcAcc_pending (v : Word) : (s.putCrcAcc v).pending = s.pending := rfl
@[simp] theorem putCrcAcc_replies (v : Word) : (s.putCrcAcc v).replies = s.replies := rfl
@[simp] theorem putCrcAcc_refusedMark (v : Word) :
    (s.putCrcAcc v).refusedMark = s.refusedMark := rfl

/-! ### a write of CT -/

@[simp] theorem putType_cmd (v : Word) : (s.putType v).cmd = s.cmd := rfl
@[simp] theorem putType_arg0 (v : Word) : (s.putType v).arg0 = s.arg0 := rfl
@[simp] theorem putType_arg1 (v : Word) : (s.putType v).arg1 = s.arg1 := rfl
@[simp] theorem putType_arg2 (v : Word) : (s.putType v).arg2 = s.arg2 := rfl
@[simp] theorem putType_result (v : Word) : (s.putType v).result = s.result := rfl
@[simp] theorem putType_err (v : Word) : (s.putType v).err = s.err := rfl
@[simp] theorem putType_errInfo0 (v : Word) : (s.putType v).errInfo0 = s.errInfo0 := rfl
@[simp] theorem putType_errInfo1 (v : Word) : (s.putType v).errInfo1 = s.errInfo1 := rfl
@[simp] theorem putType_faultCode (v : Word) : (s.putType v).faultCode = s.faultCode := rfl
@[simp] theorem putType_faultOpcode (v : Word) : (s.putType v).faultOpcode = s.faultOpcode := rfl
@[simp] theorem putType_faultInfo (v : Word) : (s.putType v).faultInfo = s.faultInfo := rfl
@[simp] theorem putType_crcAcc (v : Word) : (s.putType v).crcAcc = s.crcAcc := rfl
@[simp] theorem putType_ct (v : Word) : (s.putType v).ct = v := rfl
@[simp] theorem putType_ctPresent (v : Word) : (s.putType v).ctPresent = true := rfl
@[simp] theorem putType_chType (v : Word) : (s.putType v).chType = s.chType := rfl
@[simp] theorem putType_chLen (v : Word) : (s.putType v).chLen = s.chLen := rfl
@[simp] theorem putType_chPresent (v : Word) : (s.putType v).chPresent = s.chPresent := rfl
@[simp] theorem putType_pl (v : Word) : (s.putType v).pl = s.pl := rfl
@[simp] theorem putType_mem (v : Word) : (s.putType v).mem = s.mem := rfl
@[simp] theorem putType_cfg (v : Word) : (s.putType v).cfg = s.cfg := rfl
@[simp] theorem putType_pending (v : Word) : (s.putType v).pending = s.pending := rfl
@[simp] theorem putType_replies (v : Word) : (s.putType v).replies = s.replies := rfl
@[simp] theorem putType_refusedMark (v : Word) : (s.putType v).refusedMark = s.refusedMark := rfl

/-! ### a write of the chunk register -/

@[simp] theorem putChunk_cmd (ty len : Word) (d : List Byte) :
    (s.putChunk ty len d).cmd = s.cmd := rfl
@[simp] theorem putChunk_arg0 (ty len : Word) (d : List Byte) :
    (s.putChunk ty len d).arg0 = s.arg0 := rfl
@[simp] theorem putChunk_arg1 (ty len : Word) (d : List Byte) :
    (s.putChunk ty len d).arg1 = s.arg1 := rfl
@[simp] theorem putChunk_arg2 (ty len : Word) (d : List Byte) :
    (s.putChunk ty len d).arg2 = s.arg2 := rfl
@[simp] theorem putChunk_result (ty len : Word) (d : List Byte) :
    (s.putChunk ty len d).result = s.result := rfl
@[simp] theorem putChunk_err (ty len : Word) (d : List Byte) :
    (s.putChunk ty len d).err = s.err := rfl
@[simp] theorem putChunk_errInfo0 (ty len : Word) (d : List Byte) :
    (s.putChunk ty len d).errInfo0 = s.errInfo0 := rfl
@[simp] theorem putChunk_errInfo1 (ty len : Word) (d : List Byte) :
    (s.putChunk ty len d).errInfo1 = s.errInfo1 := rfl
@[simp] theorem putChunk_faultCode (ty len : Word) (d : List Byte) :
    (s.putChunk ty len d).faultCode = s.faultCode := rfl
@[simp] theorem putChunk_faultOpcode (ty len : Word) (d : List Byte) :
    (s.putChunk ty len d).faultOpcode = s.faultOpcode := rfl
@[simp] theorem putChunk_faultInfo (ty len : Word) (d : List Byte) :
    (s.putChunk ty len d).faultInfo = s.faultInfo := rfl
@[simp] theorem putChunk_crcAcc (ty len : Word) (d : List Byte) :
    (s.putChunk ty len d).crcAcc = s.crcAcc := rfl
@[simp] theorem putChunk_ct (ty len : Word) (d : List Byte) : (s.putChunk ty len d).ct = s.ct := rfl
@[simp] theorem putChunk_ctPresent (ty len : Word) (d : List Byte) :
    (s.putChunk ty len d).ctPresent = s.ctPresent := rfl
@[simp] theorem putChunk_chType (ty len : Word) (d : List Byte) :
    (s.putChunk ty len d).chType = ty := rfl
@[simp] theorem putChunk_chLen (ty len : Word) (d : List Byte) :
    (s.putChunk ty len d).chLen = len := rfl
@[simp] theorem putChunk_chPresent (ty len : Word) (d : List Byte) :
    (s.putChunk ty len d).chPresent = true := rfl
@[simp] theorem putChunk_pl (ty len : Word) (d : List Byte) : (s.putChunk ty len d).pl = d := rfl
@[simp] theorem putChunk_mem (ty len : Word) (d : List Byte) :
    (s.putChunk ty len d).mem = s.mem := rfl
@[simp] theorem putChunk_cfg (ty len : Word) (d : List Byte) :
    (s.putChunk ty len d).cfg = s.cfg := rfl
@[simp] theorem putChunk_pending (ty len : Word) (d : List Byte) :
    (s.putChunk ty len d).pending = s.pending := rfl
@[simp] theorem putChunk_replies (ty len : Word) (d : List Byte) :
    (s.putChunk ty len d).replies = s.replies := rfl
@[simp] theorem putChunk_refusedMark (ty len : Word) (d : List Byte) :
    (s.putChunk ty len d).refusedMark = s.refusedMark := rfl

/-! ### a write to `mem` -/

@[simp] theorem putBytes_cmd (a : Nat) (bs : List Byte) : (s.putBytes a bs).cmd = s.cmd := rfl
@[simp] theorem putBytes_arg0 (a : Nat) (bs : List Byte) : (s.putBytes a bs).arg0 = s.arg0 := rfl
@[simp] theorem putBytes_arg1 (a : Nat) (bs : List Byte) : (s.putBytes a bs).arg1 = s.arg1 := rfl
@[simp] theorem putBytes_arg2 (a : Nat) (bs : List Byte) : (s.putBytes a bs).arg2 = s.arg2 := rfl
@[simp] theorem putBytes_result (a : Nat) (bs : List Byte) :
    (s.putBytes a bs).result = s.result := rfl
@[simp] theorem putBytes_err (a : Nat) (bs : List Byte) : (s.putBytes a bs).err = s.err := rfl
@[simp] theorem putBytes_errInfo0 (a : Nat) (bs : List Byte) :
    (s.putBytes a bs).errInfo0 = s.errInfo0 := rfl
@[simp] theorem putBytes_errInfo1 (a : Nat) (bs : List Byte) :
    (s.putBytes a bs).errInfo1 = s.errInfo1 := rfl
@[simp] theorem putBytes_faultCode (a : Nat) (bs : List Byte) :
    (s.putBytes a bs).faultCode = s.faultCode := rfl
@[simp] theorem putBytes_faultOpcode (a : Nat) (bs : List Byte) :
    (s.putBytes a bs).faultOpcode = s.faultOpcode := rfl
@[simp] theorem putBytes_faultInfo (a : Nat) (bs : List Byte) :
    (s.putBytes a bs).faultInfo = s.faultInfo := rfl
@[simp] theorem putBytes_crcAcc (a : Nat) (bs : List Byte) :
    (s.putBytes a bs).crcAcc = s.crcAcc := rfl
@[simp] theorem putBytes_ct (a : Nat) (bs : List Byte) : (s.putBytes a bs).ct = s.ct := rfl
@[simp] theorem putBytes_ctPresent (a : Nat) (bs : List Byte) :
    (s.putBytes a bs).ctPresent = s.ctPresent := rfl
@[simp] theorem putBytes_chType (a : Nat) (bs : List Byte) :
    (s.putBytes a bs).chType = s.chType := rfl
@[simp] theorem putBytes_chLen (a : Nat) (bs : List Byte) : (s.putBytes a bs).chLen = s.chLen := rfl
@[simp] theorem putBytes_chPresent (a : Nat) (bs : List Byte) :
    (s.putBytes a bs).chPresent = s.chPresent := rfl
@[simp] theorem putBytes_pl (a : Nat) (bs : List Byte) : (s.putBytes a bs).pl = s.pl := rfl
@[simp] theorem putBytes_mem (a : Nat) (bs : List Byte) :
    (s.putBytes a bs).mem = s.mem.writeBytes a bs := rfl
@[simp] theorem putBytes_cfg (a : Nat) (bs : List Byte) : (s.putBytes a bs).cfg = s.cfg := rfl
@[simp] theorem putBytes_pending (a : Nat) (bs : List Byte) :
    (s.putBytes a bs).pending = s.pending := rfl
@[simp] theorem putBytes_replies (a : Nat) (bs : List Byte) :
    (s.putBytes a bs).replies = s.replies := rfl
@[simp] theorem putBytes_refusedMark (a : Nat) (bs : List Byte) :
    (s.putBytes a bs).refusedMark = s.refusedMark := rfl

/-! ### the remainder of a streaming parse -/

@[simp] theorem putRemainder_cmd (a n : Word) : (s.putRemainder a n).cmd = s.cmd := rfl
@[simp] theorem putRemainder_arg0 (a n : Word) : (s.putRemainder a n).arg0 = a := rfl
@[simp] theorem putRemainder_arg1 (a n : Word) : (s.putRemainder a n).arg1 = n := rfl
@[simp] theorem putRemainder_arg2 (a n : Word) : (s.putRemainder a n).arg2 = s.arg2 := rfl
@[simp] theorem putRemainder_result (a n : Word) : (s.putRemainder a n).result = s.result := rfl
@[simp] theorem putRemainder_err (a n : Word) : (s.putRemainder a n).err = s.err := rfl
@[simp] theorem putRemainder_errInfo0 (a n : Word) :
    (s.putRemainder a n).errInfo0 = s.errInfo0 := rfl
@[simp] theorem putRemainder_errInfo1 (a n : Word) :
    (s.putRemainder a n).errInfo1 = s.errInfo1 := rfl
@[simp] theorem putRemainder_faultCode (a n : Word) :
    (s.putRemainder a n).faultCode = s.faultCode := rfl
@[simp] theorem putRemainder_faultOpcode (a n : Word) :
    (s.putRemainder a n).faultOpcode = s.faultOpcode := rfl
@[simp] theorem putRemainder_faultInfo (a n : Word) :
    (s.putRemainder a n).faultInfo = s.faultInfo := rfl
@[simp] theorem putRemainder_crcAcc (a n : Word) : (s.putRemainder a n).crcAcc = s.crcAcc := rfl
@[simp] theorem putRemainder_ct (a n : Word) : (s.putRemainder a n).ct = s.ct := rfl
@[simp] theorem putRemainder_ctPresent (a n : Word) :
    (s.putRemainder a n).ctPresent = s.ctPresent := rfl
@[simp] theorem putRemainder_chType (a n : Word) : (s.putRemainder a n).chType = s.chType := rfl
@[simp] theorem putRemainder_chLen (a n : Word) : (s.putRemainder a n).chLen = s.chLen := rfl
@[simp] theorem putRemainder_chPresent (a n : Word) :
    (s.putRemainder a n).chPresent = s.chPresent := rfl
@[simp] theorem putRemainder_pl (a n : Word) : (s.putRemainder a n).pl = s.pl := rfl
@[simp] theorem putRemainder_mem (a n : Word) : (s.putRemainder a n).mem = s.mem := rfl
@[simp] theorem putRemainder_cfg (a n : Word) : (s.putRemainder a n).cfg = s.cfg := rfl
@[simp] theorem putRemainder_pending (a n : Word) : (s.putRemainder a n).pending = s.pending := rfl
@[simp] theorem putRemainder_replies (a n : Word) : (s.putRemainder a n).replies = s.replies := rfl
@[simp] theorem putRemainder_refusedMark (a n : Word) :
    (s.putRemainder a n).refusedMark = s.refusedMark := rfl

/-! ### the reply to a host read -/

@[simp] theorem reply_cmd (r : Reply) : (s.reply r).cmd = s.cmd := rfl
@[simp] theorem reply_arg0 (r : Reply) : (s.reply r).arg0 = s.arg0 := rfl
@[simp] theorem reply_arg1 (r : Reply) : (s.reply r).arg1 = s.arg1 := rfl
@[simp] theorem reply_arg2 (r : Reply) : (s.reply r).arg2 = s.arg2 := rfl
@[simp] theorem reply_result (r : Reply) : (s.reply r).result = s.result := rfl
@[simp] theorem reply_err (r : Reply) : (s.reply r).err = s.err := rfl
@[simp] theorem reply_errInfo0 (r : Reply) : (s.reply r).errInfo0 = s.errInfo0 := rfl
@[simp] theorem reply_errInfo1 (r : Reply) : (s.reply r).errInfo1 = s.errInfo1 := rfl
@[simp] theorem reply_faultCode (r : Reply) : (s.reply r).faultCode = s.faultCode := rfl
@[simp] theorem reply_faultOpcode (r : Reply) : (s.reply r).faultOpcode = s.faultOpcode := rfl
@[simp] theorem reply_faultInfo (r : Reply) : (s.reply r).faultInfo = s.faultInfo := rfl
@[simp] theorem reply_crcAcc (r : Reply) : (s.reply r).crcAcc = s.crcAcc := rfl
@[simp] theorem reply_ct (r : Reply) : (s.reply r).ct = s.ct := rfl
@[simp] theorem reply_ctPresent (r : Reply) : (s.reply r).ctPresent = s.ctPresent := rfl
@[simp] theorem reply_chType (r : Reply) : (s.reply r).chType = s.chType := rfl
@[simp] theorem reply_chLen (r : Reply) : (s.reply r).chLen = s.chLen := rfl
@[simp] theorem reply_chPresent (r : Reply) : (s.reply r).chPresent = s.chPresent := rfl
@[simp] theorem reply_pl (r : Reply) : (s.reply r).pl = s.pl := rfl
@[simp] theorem reply_mem (r : Reply) : (s.reply r).mem = s.mem := rfl
@[simp] theorem reply_cfg (r : Reply) : (s.reply r).cfg = s.cfg := rfl
@[simp] theorem reply_pending (r : Reply) : (s.reply r).pending = s.pending := rfl
@[simp] theorem reply_replies (r : Reply) : (s.reply r).replies = r :: s.replies := rfl
@[simp] theorem reply_refusedMark (r : Reply) : (s.reply r).refusedMark = s.refusedMark := rfl

/-! ### the mark of a refused access (20_memory R53) -/

@[simp] theorem markRefused_cmd : s.markRefused.cmd = s.cmd := rfl
@[simp] theorem markRefused_arg0 : s.markRefused.arg0 = s.arg0 := rfl
@[simp] theorem markRefused_arg1 : s.markRefused.arg1 = s.arg1 := rfl
@[simp] theorem markRefused_arg2 : s.markRefused.arg2 = s.arg2 := rfl
@[simp] theorem markRefused_result : s.markRefused.result = s.result := rfl
@[simp] theorem markRefused_err : s.markRefused.err = s.err := rfl
@[simp] theorem markRefused_errInfo0 : s.markRefused.errInfo0 = s.errInfo0 := rfl
@[simp] theorem markRefused_errInfo1 : s.markRefused.errInfo1 = s.errInfo1 := rfl
@[simp] theorem markRefused_faultCode : s.markRefused.faultCode = s.faultCode := rfl
@[simp] theorem markRefused_faultOpcode : s.markRefused.faultOpcode = s.faultOpcode := rfl
@[simp] theorem markRefused_faultInfo : s.markRefused.faultInfo = s.faultInfo := rfl
@[simp] theorem markRefused_crcAcc : s.markRefused.crcAcc = s.crcAcc := rfl
@[simp] theorem markRefused_ct : s.markRefused.ct = s.ct := rfl
@[simp] theorem markRefused_ctPresent : s.markRefused.ctPresent = s.ctPresent := rfl
@[simp] theorem markRefused_chType : s.markRefused.chType = s.chType := rfl
@[simp] theorem markRefused_chLen : s.markRefused.chLen = s.chLen := rfl
@[simp] theorem markRefused_chPresent : s.markRefused.chPresent = s.chPresent := rfl
@[simp] theorem markRefused_pl : s.markRefused.pl = s.pl := rfl
@[simp] theorem markRefused_mem : s.markRefused.mem = s.mem := rfl
@[simp] theorem markRefused_cfg : s.markRefused.cfg = s.cfg := rfl
@[simp] theorem markRefused_pending : s.markRefused.pending = s.pending := rfl
@[simp] theorem markRefused_replies : s.markRefused.replies = s.replies := rfl
@[simp] theorem markRefused_refusedMark : s.markRefused.refusedMark = true := rfl

end Sys2Proof.Machine.State
end

