-- ==== Sys2Proof/Laws/Operands.lean ====
section
/-! SUPPORT. The laws of the operand forms: four bytes and a word (pack, unpack, be32, to_be32) in bits and
in numbers, ranges, and what the first stages of dispatch can do. -/

namespace Sys2Proof.Machine

/-! ## Four bytes and a word -/

/-- A list of four bytes is its four elements. -/
theorem eq_four_of_length {α : Type} {l : List α} (h : l.length = 4) :
    ∃ a b c d, l = [a, b, c, d] := by
  match l, h with
  | [a, b, c, d], _ => exact ⟨a, b, c, d, rfl⟩

@[simp] theorem length_toBe32 (v : Word) : (toBe32 v).length = 4 := rfl

@[simp] theorem length_unpack (w : Word) : (unpack w).length = 4 := rfl

@[simp] theorem be32_toBe32 (v : Word) : be32 (toBe32 v) = v := by
  apply BitVec.eq_of_getLsbD_eq
  intro i hi
  simp only [be32, toBe32, BitVec.getLsbD_or, BitVec.getLsbD_shiftLeft, BitVec.getLsbD_setWidth,
    BitVec.getLsbD_extractLsb']
  rcases lt_or_ge i 8 with h | h
  · simp [h, show i < 24 by omega, show i < 16 by omega, hi]
  · rcases lt_or_ge i 16 with h' | h'
    · simp [h', show i < 24 by omega, show ¬ i < 8 by omega, show i - 8 < 8 by omega, hi,
        show i - 8 < 32 by omega, show 8 + (i - 8) = i by omega]
    · rcases lt_or_ge i 24 with h'' | h''
      · simp [h'', show ¬ i < 16 by omega, show ¬ i < 8 by omega, show ¬ i - 8 < 8 by omega, hi,
          show i - 16 < 8 by omega, show i - 16 < 32 by omega, show 16 + (i - 16) = i by omega]
      · simp [show ¬ i < 24 by omega, show ¬ i < 16 by omega, show ¬ i < 8 by omega,
          show ¬ i - 8 < 8 by omega, hi, show ¬ i - 16 < 8 by omega, show i - 24 < 8 by omega,
          show i - 24 < 32 by omega, show 24 + (i - 24) = i by omega]

/-- `be32` as a number: the bytes are the digits, the first the most significant (20_memory R49). -/
theorem toNat_be32 (a b c d : Byte) :
    (be32 [a, b, c, d]).toNat =
      a.toNat * 256 ^ 3 + b.toNat * 256 ^ 2 + c.toNat * 256 + d.toNat := by
  have ha := a.isLt
  have hb := b.isLt
  have hc := c.isLt
  have hd := d.isLt
  simp only [be32, BitVec.toNat_or, BitVec.toNat_shiftLeft, BitVec.toNat_setWidth]
  rw [Nat.mod_eq_of_lt (show a.toNat < 2 ^ 32 by omega),
    Nat.mod_eq_of_lt (show b.toNat < 2 ^ 32 by omega),
    Nat.mod_eq_of_lt (show c.toNat < 2 ^ 32 by omega),
    Nat.mod_eq_of_lt (show d.toNat < 2 ^ 32 by omega),
    Nat.shiftLeft_eq, Nat.shiftLeft_eq, Nat.shiftLeft_eq,
    Nat.mod_eq_of_lt (show a.toNat * 2 ^ 24 < 2 ^ 32 by omega),
    Nat.mod_eq_of_lt (show b.toNat * 2 ^ 16 < 2 ^ 32 by omega),
    Nat.mod_eq_of_lt (show c.toNat * 2 ^ 8 < 2 ^ 32 by omega)]
  rw [show a.toNat * 2 ^ 24 = 2 ^ 24 * a.toNat by ring,
    ← Nat.two_pow_add_eq_or_of_lt (show b.toNat * 2 ^ 16 < 2 ^ 24 by omega),
    show 2 ^ 24 * a.toNat + b.toNat * 2 ^ 16 = 2 ^ 16 * (256 * a.toNat + b.toNat) by ring,
    ← Nat.two_pow_add_eq_or_of_lt (show c.toNat * 2 ^ 8 < 2 ^ 16 by omega),
    show 2 ^ 16 * (256 * a.toNat + b.toNat) + c.toNat * 2 ^ 8 =
      2 ^ 8 * (65536 * a.toNat + 256 * b.toNat + c.toNat) by ring,
    ← Nat.two_pow_add_eq_or_of_lt (show d.toNat < 2 ^ 8 by omega)]
  ring

/-- `be32` of four bytes, written with the digits. -/
theorem be32_eq_ofNat (a b c d : Byte) :
    be32 [a, b, c, d] = BitVec.ofNat 32
      (a.toNat * 256 ^ 3 + b.toNat * 256 ^ 2 + c.toNat * 256 + d.toNat) := by
  rw [← toNat_be32, BitVec.ofNat_toNat, BitVec.setWidth_eq]

/-- `to_be32` with numbers: byte `k` is digit `3 - k` to the base 256 (20_memory R49). -/
theorem toBe32_eq_ofNat (v : Word) :
    toBe32 v = [BitVec.ofNat 8 (v.toNat / 256 ^ 3), BitVec.ofNat 8 (v.toNat / 256 ^ 2),
      BitVec.ofNat 8 (v.toNat / 256), BitVec.ofNat 8 v.toNat] := by
  simp [toBe32, BitVec.extractLsb', Nat.shiftRight_eq_div_pow]

/-- The bytes of `be32` of four bytes are those bytes. -/
theorem toBe32_be32 (a b c d : Byte) : toBe32 (be32 [a, b, c, d]) = [a, b, c, d] := by
  have ha := a.isLt
  have hb := b.isLt
  have hc := c.isLt
  have hd := d.isLt
  rw [toBe32_eq_ofNat, toNat_be32]
  simp only [List.cons.injEq, and_true]
  refine ⟨?_, ?_, ?_, ?_⟩ <;>
  · apply BitVec.eq_of_toNat_eq
    rw [BitVec.toNat_ofNat]
    omega

@[simp] theorem pack_unpack (w : Word) : pack (unpack w) = w := be32_toBe32 w

theorem unpack_pack {l : List Byte} (h : l.length = 4) : unpack (pack l) = l := by
  obtain ⟨a, b, c, d, rfl⟩ := eq_four_of_length h
  exact toBe32_be32 a b c d

/-- The bytes of a packed word, as numbers (10_state R34). -/
theorem toNat_getD_unpack (w : Word) {k : Nat} (h : k < 4) :
    ((unpack w).getD k 0).toNat = w.toNat / 256 ^ (3 - k) % 256 := by
  rw [unpack, toBe32_eq_ofNat]
  match k, h with
  | 0, _ => simp
  | 1, _ => simp
  | 2, _ => simp
  | 3, _ => simp

/-- Packed words are equal exactly when their four bytes are. -/
theorem unpack_inj {v w : Word} : unpack v = unpack w ↔ v = w :=
  ⟨fun h => by rw [← pack_unpack v, h, pack_unpack], fun h => h ▸ rfl⟩

/-! ## Ranges -/

theorem rangeOk_iff {c : Config} {a n : Nat} : rangeOk c a n = true ↔ a + n ≤ c.memSize := by
  simp [rangeOk]

theorem rangeOk_eq_false {c : Config} {a n : Nat} :
    rangeOk c a n = false ↔ c.memSize < a + n := by
  simp [rangeOk]

/-- `dstOk` says the destination range of a command that has one is in `mem`. -/
theorem dstOk_iff {i : Instr} {s : State} :
    dstOk i s = true ↔ ∀ n, dstLen s i = some n → s.arg2.toNat + n ≤ s.cfg.memSize := by
  unfold dstOk
  cases h : dstLen s i with
  | none => simp
  | some n => simp [rangeOk_iff, State.dstAddr]

/-! ## The first stages of dispatch -/

/-- What a command needs before its own rule is reached (30_encoding R74, stages 2 and 3). -/
structure Ready (i : Instr) (s : State) : Prop where
  /-- CT is present, if the command needs it. -/
  type : needsType i = true → s.ctPresent = true
  /-- The chunk register is present, if the command needs it. -/
  chunk : needsChunk i = true → s.chPresent = true
  /-- The source range is in `mem`, if the command has one. -/
  source : usesSource i = true → s.arg0.toNat + s.arg1.toNat ≤ s.cfg.memSize
  /-- The destination range is in `mem`, if the command has one. -/
  dest : ∀ n, dstLen s i = some n → s.arg2.toNat + n ≤ s.cfg.memSize

/-- A command whose needs are met runs its own rule. -/
theorem dispatch_ready {i : Instr} {s : State} (h : Ready i s) (body : State) :
    dispatch i s body = body := by
  have hd := dstOk_iff.2 h.dest
  unfold dispatch
  rw [if_neg (by simpa using h.type), if_neg (by simpa using h.chunk),
    if_neg (by
      simp only [Bool.and_eq_true, Bool.not_eq_true', rangeOk_eq_false, not_and, not_lt]
      exact h.source), if_neg (by simp [hd])]

/-- Everything the first stages can do: the command's needs are met and its own rule runs, or one
fault is recorded and nothing else changes (30_encoding R74). -/
theorem dispatch_cases (i : Instr) (s : State) (body : State) :
    (Ready i s ∧ dispatch i s body = body) ∨
      ∃ code info, dispatch i s body = s.raiseFault i.opcode code info := by
  by_cases h : Ready i s
  · exact .inl ⟨h, dispatch_ready h body⟩
  · right
    unfold dispatch
    split
    · exact ⟨_, _, rfl⟩
    · split
      · exact ⟨_, _, rfl⟩
      · split
        · exact ⟨_, _, rfl⟩
        · split
          · exact ⟨_, _, rfl⟩
          · rename_i h1 h2 h3 h4
            refine absurd ⟨?_, ?_, ?_, ?_⟩ h
            · simpa using h1
            · simpa using h2
            · simpa [rangeOk_eq_false, State.srcAddr, State.srcLen] using h3
            · exact dstOk_iff.1 (by simpa using h4)

/-- Two dispatches of one command whose checks see the same values take the same way: a relation that
holds of the two faults and of the two bodies holds of the two results. -/
theorem dispatch_rel {P : State → State → Prop} {i : Instr} {s s' body body' : State}
    (hct : s'.ctPresent = s.ctPresent) (hch : s'.chPresent = s.chPresent) (hcfg : s'.cfg = s.cfg)
    (h0 : s'.arg0 = s.arg0) (h1 : s'.arg1 = s.arg1) (h2 : s'.arg2 = s.arg2)
    (hl : s'.chLen = s.chLen)
    (hf : ∀ code info, P (s.raiseFault i.opcode code info) (s'.raiseFault i.opcode code info))
    (hb : P body body') : P (dispatch i s body) (dispatch i s' body') := by
  have hn : dstLen s' i = dstLen s i := by cases i <;> simp only [dstLen, hl]
  have hd : dstOk i s' = dstOk i s := by simp only [dstOk, hn, hcfg, State.dstAddr, h2]
  unfold dispatch
  rw [hct, hch, hcfg, hd, h0, h2, State.srcAddr, State.srcAddr, State.srcLen, State.srcLen, h0, h1]
  split
  · exact hf _ _
  · split
    · exact hf _ _
    · split
      · exact hf _ _
      · split
        · exact hf _ _
        · exact hb

/-- Without the CT a command needs, NO_TYPE (30_encoding R74). -/
theorem dispatch_noType {i : Instr} {s : State} (hi : needsType i = true)
    (h : s.ctPresent = false) (body : State) :
    dispatch i s body = s.raiseFault i.opcode .noType 0 := by
  simp [dispatch, hi, h]

/-- Without the chunk a command needs, NO_CHUNK (30_encoding R74). -/
theorem dispatch_noChunk {i : Instr} {s : State} (ht : needsType i = false)
    (hi : needsChunk i = true) (h : s.chPresent = false) (body : State) :
    dispatch i s body = s.raiseFault i.opcode .noChunk 0 := by
  simp [dispatch, ht, hi, h]

/-- With a source range outside `mem`, MEM_RANGE with ARG0 (30_encoding R74). -/
theorem dispatch_source {i : Instr} {s : State} (ht : needsType i = true → s.ctPresent = true)
    (hc : needsChunk i = false) (hi : usesSource i = true)
    (h : ¬ s.arg0.toNat + s.arg1.toNat ≤ s.cfg.memSize) (body : State) :
    dispatch i s body = s.raiseFault i.opcode .memRange s.arg0 := by
  have hr : rangeOk s.cfg s.srcAddr s.srcLen = false := rangeOk_eq_false.2 (not_le.1 h)
  unfold dispatch
  rw [if_neg (by simpa using ht), if_neg (by simp [hc]), if_pos (by simp [hi, hr])]

/-- With a destination range outside `mem`, MEM_RANGE with ARG2 (30_encoding R74). -/
theorem dispatch_dest {i : Instr} {s : State} {n : Nat}
    (ht : needsType i = true → s.ctPresent = true)
    (hc : needsChunk i = true → s.chPresent = true) (hi : usesSource i = false)
    (hn : dstLen s i = some n) (h : ¬ s.arg2.toNat + n ≤ s.cfg.memSize) (body : State) :
    dispatch i s body = s.raiseFault i.opcode .memRange s.arg2 := by
  have hd : dstOk i s = false := by
    rw [← Bool.not_eq_true, dstOk_iff]
    exact fun h' => h (h' n hn)
  unfold dispatch
  rw [if_neg (by simpa using ht), if_neg (by simpa using hc), if_neg (by simp [hi]),
    if_pos (by simp [hd])]

end Sys2Proof.Machine
end

