-- ==== Sys2Proof/Laws/Codec.lean ====
section
/-! SUPPORT. The laws of the Chunk Type unit and of the parse procedure: when `Validate` passes and what it
reports (42_chunk_type R89, R90), and each way `ParseRecord` can end (43_chunk_codec R110, R111). -/

namespace Sys2Proof.Machine

/-! ## Letters and validation -/

theorem isUpper_iff {b : Byte} : isUpper b = true ↔ 0x41 ≤ b.toNat ∧ b.toNat ≤ 0x5A := by
  simp [isUpper]

theorem isLower_iff {b : Byte} : isLower b = true ↔ 0x61 ≤ b.toNat ∧ b.toNat ≤ 0x7A := by
  simp [isLower]

theorem isLetter_iff {b : Byte} : isLetter b = true ↔
    (0x41 ≤ b.toNat ∧ b.toNat ≤ 0x5A) ∨ (0x61 ≤ b.toNat ∧ b.toNat ≤ 0x7A) := by
  rw [isLetter, Bool.or_eq_true, isUpper_iff, isLower_iff]

theorem firstNonLetter_eq_none {i : Nat} {l : List Byte} :
    firstNonLetter i l = none ↔ ∀ b ∈ l, isLetter b = true := by
  induction l generalizing i with
  | nil => simp [firstNonLetter]
  | cons b l ih =>
    cases h : isLetter b <;> simp [firstNonLetter, h, ih]

theorem firstNonLetter_eq_some {i k : Nat} {l : List Byte} {b : Byte} (hk : l[k]? = some b)
    (hb : ¬ isLetter b = true) (hj : ∀ j, j < k → ∀ c, l[j]? = some c → isLetter c = true) :
    firstNonLetter i l = some (i + k, b) := by
  induction l generalizing i k with
  | nil => simp at hk
  | cons c l ih =>
    cases k with
    | zero =>
      simp only [List.getElem?_cons_zero, Option.some.injEq] at hk
      subst hk
      simp [firstNonLetter, hb]
    | succ k =>
      rw [firstNonLetter, if_pos (hj 0 (by omega) c (by simp)),
        ih (by simpa using hk) fun j h c hc => hj (j + 1) (by omega) c (by simpa using hc)]
      simp only [Option.some.injEq, Prod.mk.injEq, and_true]
      omega

/-- `Validate` passes exactly on letters (42_chunk_type R90). -/
theorem validate_eq_none {l : List Byte} : validate l = none ↔ ∀ b ∈ l, isLetter b = true :=
  firstNonLetter_eq_none

/-- `Validate` reports the first byte that is not a letter (42_chunk_type R90). -/
theorem validate_eq_some {k : Nat} {l : List Byte} {b : Byte} (hk : l[k]? = some b)
    (hb : ¬ isLetter b = true) (hj : ∀ j, j < k → ∀ c, l[j]? = some c → isLetter c = true) :
    validate l = some (k, b) := by
  rw [validate, firstNonLetter_eq_some hk hb hj, Nat.zero_add]

/-- Everything the load of a validated type can do. -/
theorem constructType_cases (b : List Byte) (packed : Word) (s : State) :
    ((∀ c ∈ b, isLetter c = true) ∧
        constructType b packed s = (s.putType packed).complete packed) ∨
      ∃ i0 i1, constructType b packed s = s.raiseError .invalidCharacter i0 i1 := by
  unfold constructType
  cases h : validate b with
  | none => exact .inl ⟨validate_eq_none.1 h, rfl⟩
  | some p => exact .inr ⟨_, _, rfl⟩

/-! ## The parse procedure -/

section Parse

variable {m : Memory} {cap a n : Nat} {streaming : Bool}

/-- Accept, and what was checked before it (43_chunk_codec R110). -/
theorem parseRecord_eq_accept {ty data : List Byte} {len : Word} :
    parseRecord m cap a n streaming = .accept ty len data ↔
      12 + len.toNat ≤ n ∧ len.toNat ≤ cap ∧ len = be32 (m.readBytes a 4) ∧
        ty = m.readBytes (a + 4) 4 ∧ (∀ b ∈ ty, isLetter b = true) ∧
        data = m.readBytes (a + 8) len.toNat ∧
        chunkCrc ty data = be32 (m.readBytes (a + 8 + len.toNat) 4) := by
  unfold parseRecord
  constructor
  · intro h
    split at h
    · cases h
    · dsimp only at h
      split at h
      · cases h
      · rename_i hv
        split at h
        · cases h
        · split at h
          · cases h
          · split at h
            · rename_i h1 h2 h3 h4
              injection h with hty hlen hdata
              subst hty hlen hdata
              exact ⟨by omega, by omega, rfl, rfl, validate_eq_none.1 hv, rfl, h4⟩
            · cases h
  · rintro ⟨h1, h2, rfl, rfl, h3, rfl, h4⟩
    rw [if_neg (by omega)]
    dsimp only
    rw [validate_eq_none.2 h3]
    dsimp only
    rw [if_neg (by omega), if_neg (by omega), if_pos h4]

/-- A buffer under 12 bytes. -/
theorem parseRecord_tooShort (h : n < 12) :
    parseRecord m cap a n streaming = .error .tooShort 12 (BitVec.ofNat 32 n) := by
  rw [parseRecord, if_pos h]

/-- A type byte that is not a letter. -/
theorem parseRecord_invalidCharacter {k : Nat} {b : Byte} (h : 12 ≤ n)
    (hv : validate (m.readBytes (a + 4) 4) = some (k, b)) :
    parseRecord m cap a n streaming =
      .error .invalidCharacter (BitVec.ofNat 32 k) (b.setWidth 32) := by
  rw [parseRecord, if_neg (by omega)]
  dsimp only
  rw [hv]

/-- A declared length over the bytes available. -/
theorem parseRecord_tooLong (h : 12 ≤ n) (hv : validate (m.readBytes (a + 4) 4) = none)
    (hl : n < 12 + (be32 (m.readBytes a 4)).toNat) :
    parseRecord m cap a n streaming =
      .error (if streaming then .lengthExceedsBuffer else .lengthMismatch)
        (be32 (m.readBytes a 4)) (BitVec.ofNat 32 (n - 12)) := by
  rw [parseRecord, if_neg (by omega)]
  dsimp only
  rw [hv]
  dsimp only
  rw [if_pos hl]

/-- A declared length over the payload capacity. -/
theorem parseRecord_capacity (hv : validate (m.readBytes (a + 4) 4) = none)
    (hl : 12 + (be32 (m.readBytes a 4)).toNat ≤ n)
    (hc : cap < (be32 (m.readBytes a 4)).toNat) :
    parseRecord m cap a n streaming = .fault .capacity (be32 (m.readBytes a 4)) := by
  rw [parseRecord, if_neg (by omega)]
  dsimp only
  rw [hv]
  dsimp only
  rw [if_neg (by omega), if_pos hc]

/-- A stored CRC that is not the recomputed one. -/
theorem parseRecord_crcMismatch (hv : validate (m.readBytes (a + 4) 4) = none)
    (hl : 12 + (be32 (m.readBytes a 4)).toNat ≤ n)
    (hc : (be32 (m.readBytes a 4)).toNat ≤ cap)
    (hcrc : chunkCrc (m.readBytes (a + 4) 4)
        (m.readBytes (a + 8) (be32 (m.readBytes a 4)).toNat) ≠
      be32 (m.readBytes (a + 8 + (be32 (m.readBytes a 4)).toNat) 4)) :
    parseRecord m cap a n streaming = .error .crcMismatch
      (chunkCrc (m.readBytes (a + 4) 4) (m.readBytes (a + 8) (be32 (m.readBytes a 4)).toNat))
      (be32 (m.readBytes (a + 8 + (be32 (m.readBytes a 4)).toNat) 4)) := by
  rw [parseRecord, if_neg (by omega)]
  dsimp only
  rw [hv]
  dsimp only
  rw [if_neg (by omega), if_neg (by omega), if_neg hcrc]

/-- `ParseRecord` reads its buffer alone. -/
theorem parseRecord_congr {m' : Memory} (h : ∀ x, a ≤ x → x < a + n → m.read x = m'.read x) :
    parseRecord m cap a n streaming = parseRecord m' cap a n streaming := by
  have hr : ∀ b k, a ≤ b → b + k ≤ a + n → m.readBytes b k = m'.readBytes b k :=
    fun b k hb hk => Memory.readBytes_congr fun x hx hx' => h x (by omega) (by omega)
  unfold parseRecord
  split
  · rfl
  · dsimp only
    rw [hr a 4 (by omega) (by omega), hr (a + 4) 4 (by omega) (by omega)]
    split
    · rfl
    · split
      · rfl
      · split
        · rfl
        · rw [hr _ _ (by omega) (by omega), hr _ 4 (by omega) (by omega)]

end Parse

end Sys2Proof.Machine
end

