-- ==== Sys2Proof/Laws/Exec.lean ====
section
/-! SUPPORT. Everything a command can do, said once: `exec_cases`. The frame of each command, the
invariant and the way a command ends follow from it without unfolding a meaning. -/

namespace Sys2Proof.Machine

/-- The writes a command makes to the state before `complete`, with what is known of the values
written. -/
inductive BodyWrite (i : Instr) (s : State) : State → Prop where
  /-- No write. -/
  | none : BodyWrite i s s
  /-- CRC_ACC (10_state R33). -/
  | crcAcc (v : Word) (hi : i = .crcInit ∨ (∃ b, i = .crcUpdateByte b) ∨ i = .crcUpdate) :
      BodyWrite i s (s.putCrcAcc v)
  /-- CT, with letters (10_state R35, R36), or with CH_TYPE of a present chunk. -/
  | type (w : Word) (hi : i = .ctNew ∨ i = .ctFromString ∨ i = .chunkType)
      (hw : (∀ b ∈ unpack w, isLetter b = true) ∨ (s.chPresent = true ∧ w = s.chType)) :
      BodyWrite i s (s.putType w)
  /-- The chunk register (10_state R38, 43_chunk_codec R106), with letters or a present CT. -/
  | chunk (ty len : Word) (data : List Byte) (hi : i = .chunkNew ∨ i = .chunkParse)
      (hw : (∀ b ∈ unpack ty, isLetter b = true) ∨ (s.ctPresent = true ∧ ty = s.ct))
      (hd : data.length = len.toNat) (hc : len.toNat ≤ s.cfg.payloadCap) :
      BodyWrite i s (s.putChunk ty len data)
  /-- The chunk register and the remainder (43_chunk_codec R118). -/
  | chunkNext (ty len a n : Word) (data : List Byte) (hi : i = .chunkParseNext)
      (hw : ∀ b ∈ unpack ty, isLetter b = true)
      (hd : data.length = len.toNat) (hc : len.toNat ≤ s.cfg.payloadCap) :
      BodyWrite i s ((s.putChunk ty len data).putRemainder a n)
  /-- The destination range (20_memory R54), as long as PL is CH_LEN bytes. -/
  | bytes (n : Nat) (bs : List Byte) (hn : dstLen s i = some n)
      (hr : s.arg2.toNat + n ≤ s.cfg.memSize)
      (hp : needsChunk i = true → s.chPresent = true)
      (hl : (s.chPresent = true → s.pl.length = s.chLen.toNat) → bs.length = n) :
      BodyWrite i s (s.putBytes s.dstAddr bs)

/-- The ways a command ends: a fault, an error, or its writes and `complete`. -/
inductive Ends (i : Instr) (s : State) : State → Prop where
  | fault (code : FaultCode) (info : Word) : Ends i s (s.raiseFault i.opcode code info)
  | error (kind : ErrKind) (i0 i1 : Word) : Ends i s (s.raiseError kind i0 i1)
  | success (v : Word) {s' : State} (h : BodyWrite i s s') : Ends i s (s'.complete v)

/-- A command ends as its own rule does, or with a fault of the first stages. -/
theorem ends_dispatch {i : Instr} {s body : State} (h : Ready i s → Ends i s body) :
    Ends i s (dispatch i s body) := by
  rcases dispatch_cases i s body with ⟨hr, he⟩ | ⟨code, info, he⟩
  · rw [he]
    exact h hr
  · rw [he]
    exact .fault code info

theorem ends_constructType {i : Instr} {s : State} {b : List Byte} {packed : Word}
    (hi : i = .ctNew ∨ i = .ctFromString) (hb : unpack packed = b) :
    Ends i s (constructType b packed s) := by
  rcases constructType_cases b packed s with ⟨hl, he⟩ | ⟨i0, i1, he⟩
  · rw [he]
    exact .success _ (.type _ (by tauto) (.inl (by rw [hb]; exact hl)))
  · rw [he]
    exact .error _ _ _

/-- What a record accepted by `ParseRecord` is. -/
theorem accept_spec {m : Memory} {cap a n : Nat} {streaming : Bool} {ty data : List Byte}
    {len : Word} (h : parseRecord m cap a n streaming = .accept ty len data) :
    (∀ b ∈ unpack (pack ty), isLetter b = true) ∧ data.length = len.toNat ∧ len.toNat ≤ cap := by
  obtain ⟨-, hc, -, hty, hl, hd, -⟩ := parseRecord_eq_accept.1 h
  refine ⟨?_, ?_, hc⟩
  · rw [unpack_pack (by simp [hty])]
    exact hl
  · simp [hd]

/-- Everything a command can do. -/
theorem exec_cases (i : Instr) (s : State) : ∃ t, exec i s = .next t ∧ Ends i s t := by
  cases i with
  | crcInit => exact ⟨_, rfl, ends_dispatch fun _ => .success _ (.crcAcc _ (by simp))⟩
  | crcUpdateByte b => exact ⟨_, rfl, ends_dispatch fun _ => .success _ (.crcAcc _ (by simp))⟩
  | crcUpdate => exact ⟨_, rfl, ends_dispatch fun _ => .success _ (.crcAcc _ (by simp))⟩
  | crcGet => exact ⟨_, rfl, ends_dispatch fun _ => .success _ .none⟩
  | ctNew => exact ⟨_, rfl, ends_dispatch fun _ => ends_constructType (by simp) rfl⟩
  | ctFromString =>
    refine ⟨_, rfl, ends_dispatch fun _ => ?_⟩
    split
    · exact ends_constructType (by simp) (unpack_pack (by simp))
    · exact .error _ _ _
  | ctBytes => exact ⟨_, rfl, ends_dispatch fun _ => .success _ .none⟩
  | ctIsCritical => exact ⟨_, rfl, ends_dispatch fun _ => .success _ .none⟩
  | ctIsPublic => exact ⟨_, rfl, ends_dispatch fun _ => .success _ .none⟩
  | ctIsReservedBitValid => exact ⟨_, rfl, ends_dispatch fun _ => .success _ .none⟩
  | ctIsSafeToCopy => exact ⟨_, rfl, ends_dispatch fun _ => .success _ .none⟩
  | ctIsValid => exact ⟨_, rfl, ends_dispatch fun _ => .success _ .none⟩
  | ctToString =>
    exact ⟨_, rfl, ends_dispatch fun h => .success _
      (.bytes 4 _ rfl (h.dest 4 rfl) h.chunk fun _ => rfl)⟩
  | ctEq => exact ⟨_, rfl, ends_dispatch fun _ => .success _ .none⟩
  | chunkNew =>
    refine ⟨_, rfl, ends_dispatch fun h => ?_⟩
    split
    · exact .fault _ _
    · rename_i hc
      exact .success _ (.chunk _ _ _ (by simp) (.inr ⟨h.type rfl, rfl⟩)
        (by simp [State.srcBytes, State.srcLen]) (by simpa [State.srcLen] using hc))
  | chunkLength => exact ⟨_, rfl, ends_dispatch fun _ => .success _ .none⟩
  | chunkCrc => exact ⟨_, rfl, ends_dispatch fun _ => .success _ .none⟩
  | chunkDataAsText =>
    refine ⟨_, rfl, ends_dispatch fun h => ?_⟩
    split
    · exact .error _ _ _
    · exact .success _ (.bytes _ _ rfl (h.dest _ rfl) h.chunk fun hp => hp (h.chunk rfl))
  | chunkSerialize =>
    refine ⟨_, rfl, ends_dispatch fun h => .success _
      (.bytes _ _ rfl (h.dest _ rfl) h.chunk fun hp => ?_)⟩
    have := hp (h.chunk rfl)
    simp only [recordBytes, List.length_append, length_toBe32, length_unpack]
    omega
  | chunkParse =>
    refine ⟨_, rfl, ends_dispatch fun _ => ?_⟩
    split
    · exact .error _ _ _
    · exact .fault _ _
    · rename_i ty len data hp
      obtain ⟨hl, hd, hc⟩ := accept_spec hp
      split
      · exact .error _ _ _
      · exact .success _ (.chunk _ _ _ (by simp) (.inl hl) hd hc)
  | chunkParseNext =>
    refine ⟨_, rfl, ends_dispatch fun _ => ?_⟩
    split
    · exact .error _ _ _
    · exact .fault _ _
    · rename_i ty len data hp
      obtain ⟨hl, hd, hc⟩ := accept_spec hp
      exact .success _ (.chunkNext _ _ _ _ _ rfl hl hd hc)
  | chunkData =>
    exact ⟨_, rfl, ends_dispatch fun h => .success _
      (.bytes _ _ rfl (h.dest _ rfl) h.chunk fun hp => hp (h.chunk rfl))⟩
  | chunkType =>
    exact ⟨_, rfl, ends_dispatch fun h => .success _
      (.type _ (by simp) (.inr ⟨h.chunk rfl, rfl⟩))⟩

/-- The inversion of `exec`: from a next state, how the command ended. -/
theorem ends_of_exec {i : Instr} {s t : State} (h : exec i s = .next t) : Ends i s t := by
  obtain ⟨t', ht', he⟩ := exec_cases i s
  rw [h] at ht'
  injection ht' with ht'
  exact ht' ▸ he

end Sys2Proof.Machine
end

