-- ==== Sys2Proof/Laws/Step.lean ====
section
/-! SUPPORT. What a step can do, and what each host action does. -/

namespace Sys2Proof.Machine

/-- A step at a pending action takes it (20_memory R67). -/
theorem step_takeAction {s : State} {a : HostAction} {rest : List HostAction}
    (hm : s.refusedMark = false) (hp : s.pending = a :: rest) :
    step s = ({ s with pending := rest } : State).takeAction a := by
  simp [step, State.stepRun, hm, hp]

/-- A step with no action left holds every register (60_exceptions R140). -/
theorem step_idle {s : State} (hm : s.refusedMark = false) (hp : s.pending = []) :
    step s = .next s := by
  simp [step, State.stepRun, hm, hp]

/-- A marked state takes no step (20_memory R53). -/
theorem step_marked {s : State} (hm : s.refusedMark = true) :
    step s = .refused .undefinedAccess := by
  simp [step, State.stepRun, hm]

/-- A step that answers a next state is idle, or takes the head of an unmarked state's actions. -/
theorem step_next_cases {s t : State} (h : step s = .next t) :
    s.refusedMark = false ∧
      ((s.pending = [] ∧ t = s) ∨
        ∃ a rest, s.pending = a :: rest ∧
          ({ s with pending := rest } : State).takeAction a = .next t) := by
  rcases Bool.eq_false_or_eq_true s.refusedMark with hm | hm
  · rw [step_marked hm] at h
    cases h
  · refine ⟨hm, ?_⟩
    match hp : s.pending with
    | [] =>
      rw [step_idle hm hp] at h
      injection h with h
      exact .inl ⟨rfl, h.symm⟩
    | a :: rest =>
      rw [step_takeAction hm hp] at h
      exact .inr ⟨a, rest, rfl, h⟩

/-- Everything a CMD write can do (30_encoding R74): ignored by a faulted engine, a command run with
CMD = `w`, or ILLEGAL_COMMAND. -/
theorem commandWrite_cases (w : Word) (s : State) :
    (s.faultCode ≠ none ∧ s.commandWrite w = .next s) ∨
    (s.faultCode = none ∧ ∃ i, decode w = .ok i ∧ s.commandWrite w = exec i { s with cmd := w }) ∨
    (s.faultCode = none ∧ (∃ e, decode w = .error e) ∧ s.commandWrite w = .next
      (({ s with cmd := w } : State).raiseFault (CommandWord.opcode w) .illegalCommand w)) := by
  unfold State.commandWrite State.faulted
  cases hf : s.faultCode with
  | some f => exact .inl ⟨by simp, by simp⟩
  | none =>
    cases hd : decode w with
    | ok i => exact .inr (.inl ⟨rfl, i, rfl, by simp⟩)
    | error e => exact .inr (.inr ⟨rfl, ⟨e, rfl⟩, by simp⟩)

/-- A register write at offset 0x00 is a CMD write (10_state R25). -/
theorem takeAction_command (w : Word) (s : State) :
    s.takeAction (.regWrite .word 0x00 w) = s.commandWrite w := rfl

/-- The relation of a state to the state after a CMD write: nothing, or a command that ends. -/
inductive CommandStep (s : State) : State → Prop where
  | ignored (hf : s.faultCode ≠ none) : CommandStep s s
  | ran (w : Word) (i : Instr) (t : State) (hf : s.faultCode = none) (hd : decode w = .ok i)
      (he : Ends i { s with cmd := w } t) : CommandStep s t
  | illegal (w : Word) (hf : s.faultCode = none) : CommandStep s
      (({ s with cmd := w } : State).raiseFault (CommandWord.opcode w) .illegalCommand w)

/-- Everything a host action that answers a next state can do (20_memory R66). -/
inductive ActionStep (s : State) : State → Prop where
  | command {t : State} (h : CommandStep s t) : ActionStep s t
  | args (a b c : Word) : ActionStep s { s with arg0 := a, arg1 := b, arg2 := c }
  | reply (r : Reply) : ActionStep s (s.reply r)
  | mark : ActionStep s s.markRefused
  | memory (a : Nat) (b : Byte) (ha : a < s.cfg.memSize) :
      ActionStep s { s with mem := s.mem.write a b }
  | same : ActionStep s s

/-- A CMD write is one of the three. -/
theorem commandStep_of_write {w : Word} {s t : State} (h : s.commandWrite w = .next t) :
    CommandStep s t := by
  rcases commandWrite_cases w s with ⟨hf, he⟩ | ⟨hf, i, hd, he⟩ | ⟨hf, -, he⟩
  · rw [he] at h
    injection h with h
    exact h ▸ .ignored hf
  · rw [he] at h
    exact .ran w i t hf hd (ends_of_exec h)
  · rw [he] at h
    injection h with h
    exact h ▸ .illegal w hf

/-- The effect of a register write that answers a next state. -/
theorem actionStep_of_writeRegister {off : Nat} {v : Word} {s t : State}
    (h : s.writeRegister off v = .next t) : ActionStep s t := by
  unfold State.writeRegister at h
  split at h
  · exact .command (commandStep_of_write h)
  all_goals injection h with h; subst h
  · exact .args v s.arg1 s.arg2
  · exact .args s.arg0 v s.arg2
  · exact .args s.arg0 s.arg1 v
  · exact .same

/-- The effect of a host action other than reset that answers a next state. -/
theorem actionStep_of_takeAction {a : HostAction} {s t : State} (hr : a ≠ .assertReset)
    (h : s.takeAction a = .next t) : ActionStep s t := by
  cases a with
  | regWrite width off v =>
    simp only [State.takeAction] at h
    split at h
    · exact actionStep_of_writeRegister h
    · injection h with h
      exact h ▸ .mark
  | regRead width off =>
    simp only [State.takeAction] at h
    split at h <;> injection h with h <;> subst h
    · exact .reply _
    · exact .mark
  | memWrite addr b =>
    simp only [State.takeAction] at h
    split at h
    · rename_i ha
      injection h with h
      exact h ▸ .memory addr b ha
    · cases h
  | memRead addr =>
    simp only [State.takeAction] at h
    split at h
    · injection h with h
      exact h ▸ .reply _
    · cases h
  | assertReset => exact absurd rfl hr

end Sys2Proof.Machine
end

