-- ==== Sys2Proof/Laws/Claims.lean ====
section
/-! SUPPORT. The terms of `Sys2Proof.Claims` in the machine's own words: what a claim says with numbers
and lists is what the operand functions of the machine compute. -/

namespace Sys2Proof.Claims

open Sys2Proof.Machine

/-! ## Bytes and words -/

/-- `MemRead` of a claim is that of the machine (20_memory R47). -/
theorem bytesAt_eq (m : Memory) (a n : Nat) : bytesAt m a n = m.readBytes a n :=
  (Memory.readBytes_eq_map m a n).symm

/-- The big-endian word of a claim is `be32` of four bytes (20_memory R49). -/
theorem wordAt_eq (m : Memory) (a : Nat) : wordAt m a = be32 (m.readBytes a 4) := by
  rw [show m.readBytes a 4 = [m.read a, m.read (a + 1), m.read (a + 2), m.read (a + 3)] from rfl,
    be32_eq_ofNat]

/-- The four bytes of a claim are `unpack` (10_state R34). -/
theorem bytesOf_eq (w : Word) : bytesOf w = unpack w := (toBe32_eq_ofNat w).symm

/-- The length field of a claim is `to_be32` of the length (43_chunk_codec R105). -/
theorem bigEndian_eq {n : Nat} (h : n < 2 ^ 32) : bigEndian n = toBe32 (BitVec.ofNat 32 n) := by
  rw [toBe32_eq_ofNat, BitVec.toNat_ofNat, Nat.mod_eq_of_lt h]

/-- The packed word of a claim is `pack` (10_state R34). -/
theorem packed_eq {l : List Byte} (h : l.length = 4) : packed l = pack l := by
  obtain ⟨a, b, c, d, rfl⟩ := eq_four_of_length h
  rw [pack, be32_eq_ofNat]
  refine congrArg (BitVec.ofNat 32) ?_
  simp only [List.foldl_cons, List.foldl_nil]
  omega

/-- The CRC of a claim is `Crc32` (41_crc R81). -/
theorem crcOf_eq (s : List Byte) : crcOf s = crc32 s := (crc32_eq_foldl s).symm

/-- The wire layout of a claim is `Serialize` (43_chunk_codec R105). -/
theorem wire_eq {ty data : List Byte} (h : data.length < 2 ^ 32) :
    wire ty data = serialize ty data := by
  rw [serialize, recordBytes, chunkCrc, ← crcOf_eq, ← bigEndian_eq h, toBe32_eq_ofNat]

theorem length_wire {ty : List Byte} (h : ty.length = 4) (data : List Byte) :
    (wire ty data).length = 12 + data.length := by
  simp only [List.length_append, List.length_cons, List.length_nil, h]
  omega

/-! ## Letters -/

theorem letter_iff {b : Byte} : Letter b.toNat ↔ isLetter b = true := isLetter_iff.symm

theorem capital_iff {b : Byte} : Capital b.toNat ↔ isUpper b = true := isUpper_iff.symm

theorem small_iff {b : Byte} : Small b.toNat ↔ isLower b = true := isLower_iff.symm

/-- Byte `k` of a packed type, as a number (10_state R34). -/
theorem byteAt_eq (w : Word) {k : Nat} (h : k < 4) : byteAt w k = (typeByte w k).toNat :=
  (toNat_getD_unpack w h).symm

/-- A byte of a word, found in the list of its bytes. -/
theorem getElem?_unpack (w : Word) {k : Nat} (h : k < 4) :
    (unpack w)[k]? = some (typeByte w k) := by
  match k, h with
  | 0, _ => rfl
  | 1, _ => rfl
  | 2, _ => rfl
  | 3, _ => rfl

/-- A byte of `mem`, found in the bytes read. -/
theorem getElem?_readBytes (m : Memory) (a : Nat) {k n : Nat} (h : k < n) :
    (m.readBytes a n)[k]? = some (m.read (a + k)) := by
  rw [Memory.readBytes_eq_map, List.getElem?_map, List.getElem?_range h]
  rfl

/-! ## Encoding -/

/-- A word the decoder refuses is illegal (30_encoding R72). -/
theorem illegal_of_error {w : Word} (h : ∃ e, decode w = .error e) : Illegal w := by
  refine ⟨h, fun s rest ⟨hm, hp⟩ hf => ?_⟩
  have ho : BitVec.ofNat 8 w.toNat = CommandWord.opcode w := by
    apply BitVec.eq_of_toNat_eq
    rw [CommandWord.toNat_opcode, BitVec.toNat_ofNat]
  rw [step_takeAction hm hp, takeAction_command, ho]
  rcases commandWrite_cases w ({ s with pending := rest } : State) with
    ⟨hn, -⟩ | ⟨-, i, hd, -⟩ | ⟨-, -, he⟩
  · exact absurd hf hn
  · obtain ⟨e, he⟩ := h
    rw [hd] at he
    cases he
  · exact he

/-- A row of the opcode map has exactly one word (30_encoding R71, R72). -/
theorem onlyWordOf {op : Byte} {i : Instr} (h2 : op ≠ 0x02) (h : commandOf op = some i) :
    OnlyWordOf op i := by
  intro w hw
  have ho : CommandWord.opcode w = op := CommandWord.opcode_eq.2 hw
  constructor
  · intro he
    have hl := op.isLt
    refine decode_eq_ok.2 ⟨CommandWord.reserved_eq_zero.2 ?_, .inr ⟨by rwa [ho],
      CommandWord.imm_eq_zero.2 ?_, by rwa [ho]⟩⟩ <;> rw [he, BitVec.toNat_setWidth] <;> omega
  · intro hne
    apply illegal_of_error
    rw [decode_isError]
    rintro ⟨j, hj⟩
    obtain ⟨hr, ⟨h, rfl⟩ | ⟨h, h', h''⟩⟩ := decode_eq_ok.1 hj
    · exact h2 (ho ▸ h)
    · apply hne
      rw [CommandWord.eq_of_reserved hr, h', ho]
      simp

end Sys2Proof.Claims
end

