-- ==== Sys2Proof/Laws/PerInstr.lean ====
section
/-! SUPPORT. Statements made for each command as syntax. `EncodedWord`: the fields of a command's word
(30_encoding R68, R69, R71): its opcode, its IMM8, and RSV = 0. -/

/-- The fields of the word of a command (30_encoding R68). -/
def Sys2Proof.Laws.EncodedWord.Statement (i : Sys2Proof.Instr) : Prop :=
  Sys2Proof.CommandWord.opcode (Sys2Proof.encode i) = i.opcode ∧
    Sys2Proof.CommandWord.imm (Sys2Proof.encode i) = i.imm8 ∧
    Sys2Proof.CommandWord.reserved (Sys2Proof.encode i) = 0

theorem Sys2Proof.Laws.EncodedWord.crcInit :
    Sys2Proof.Laws.EncodedWord.Statement .crcInit := by
  unfold Sys2Proof.Laws.EncodedWord.Statement
  decide

theorem Sys2Proof.Laws.EncodedWord.crcUpdateByte (imm : Sys2Proof.Byte) :
    Sys2Proof.Laws.EncodedWord.Statement (.crcUpdateByte imm) := by
  revert imm
  unfold Sys2Proof.Laws.EncodedWord.Statement
  decide +kernel

theorem Sys2Proof.Laws.EncodedWord.crcUpdate :
    Sys2Proof.Laws.EncodedWord.Statement .crcUpdate := by
  unfold Sys2Proof.Laws.EncodedWord.Statement
  decide

theorem Sys2Proof.Laws.EncodedWord.crcGet :
    Sys2Proof.Laws.EncodedWord.Statement .crcGet := by
  unfold Sys2Proof.Laws.EncodedWord.Statement
  decide

theorem Sys2Proof.Laws.EncodedWord.ctNew :
    Sys2Proof.Laws.EncodedWord.Statement .ctNew := by
  unfold Sys2Proof.Laws.EncodedWord.Statement
  decide

theorem Sys2Proof.Laws.EncodedWord.ctFromString :
    Sys2Proof.Laws.EncodedWord.Statement .ctFromString := by
  unfold Sys2Proof.Laws.EncodedWord.Statement
  decide

theorem Sys2Proof.Laws.EncodedWord.ctBytes :
    Sys2Proof.Laws.EncodedWord.Statement .ctBytes := by
  unfold Sys2Proof.Laws.EncodedWord.Statement
  decide

theorem Sys2Proof.Laws.EncodedWord.ctIsCritical :
    Sys2Proof.Laws.EncodedWord.Statement .ctIsCritical := by
  unfold Sys2Proof.Laws.EncodedWord.Statement
  decide

theorem Sys2Proof.Laws.EncodedWord.ctIsPublic :
    Sys2Proof.Laws.EncodedWord.Statement .ctIsPublic := by
  unfold Sys2Proof.Laws.EncodedWord.Statement
  decide

theorem Sys2Proof.Laws.EncodedWord.ctIsReservedBitValid :
    Sys2Proof.Laws.EncodedWord.Statement .ctIsReservedBitValid := by
  unfold Sys2Proof.Laws.EncodedWord.Statement
  decide

theorem Sys2Proof.Laws.EncodedWord.ctIsSafeToCopy :
    Sys2Proof.Laws.EncodedWord.Statement .ctIsSafeToCopy := by
  unfold Sys2Proof.Laws.EncodedWord.Statement
  decide

theorem Sys2Proof.Laws.EncodedWord.ctIsValid :
    Sys2Proof.Laws.EncodedWord.Statement .ctIsValid := by
  unfold Sys2Proof.Laws.EncodedWord.Statement
  decide

theorem Sys2Proof.Laws.EncodedWord.ctToString :
    Sys2Proof.Laws.EncodedWord.Statement .ctToString := by
  unfold Sys2Proof.Laws.EncodedWord.Statement
  decide

theorem Sys2Proof.Laws.EncodedWord.ctEq :
    Sys2Proof.Laws.EncodedWord.Statement .ctEq := by
  unfold Sys2Proof.Laws.EncodedWord.Statement
  decide

theorem Sys2Proof.Laws.EncodedWord.chunkNew :
    Sys2Proof.Laws.EncodedWord.Statement .chunkNew := by
  unfold Sys2Proof.Laws.EncodedWord.Statement
  decide

theorem Sys2Proof.Laws.EncodedWord.chunkLength :
    Sys2Proof.Laws.EncodedWord.Statement .chunkLength := by
  unfold Sys2Proof.Laws.EncodedWord.Statement
  decide

theorem Sys2Proof.Laws.EncodedWord.chunkCrc :
    Sys2Proof.Laws.EncodedWord.Statement .chunkCrc := by
  unfold Sys2Proof.Laws.EncodedWord.Statement
  decide

theorem Sys2Proof.Laws.EncodedWord.chunkDataAsText :
    Sys2Proof.Laws.EncodedWord.Statement .chunkDataAsText := by
  unfold Sys2Proof.Laws.EncodedWord.Statement
  decide

theorem Sys2Proof.Laws.EncodedWord.chunkSerialize :
    Sys2Proof.Laws.EncodedWord.Statement .chunkSerialize := by
  unfold Sys2Proof.Laws.EncodedWord.Statement
  decide

theorem Sys2Proof.Laws.EncodedWord.chunkParse :
    Sys2Proof.Laws.EncodedWord.Statement .chunkParse := by
  unfold Sys2Proof.Laws.EncodedWord.Statement
  decide

theorem Sys2Proof.Laws.EncodedWord.chunkParseNext :
    Sys2Proof.Laws.EncodedWord.Statement .chunkParseNext := by
  unfold Sys2Proof.Laws.EncodedWord.Statement
  decide

theorem Sys2Proof.Laws.EncodedWord.chunkData :
    Sys2Proof.Laws.EncodedWord.Statement .chunkData := by
  unfold Sys2Proof.Laws.EncodedWord.Statement
  decide

theorem Sys2Proof.Laws.EncodedWord.chunkType :
    Sys2Proof.Laws.EncodedWord.Statement .chunkType := by
  unfold Sys2Proof.Laws.EncodedWord.Statement
  decide
end

