-- ==== Sys2Proof/Laws/Text.lean ====
section
/-! SUPPORT. The laws of payload text (43_chunk_codec R108, R109): the rows of the table have disjoint first
bytes, so a sequence is recognised exactly where the table has it. -/

namespace Sys2Proof.Claims

open Sys2Proof.Machine

/-- No two rows of the table share a first byte (43_chunk_codec R109). -/
theorem utf8Rows_disjoint : ∀ b : Byte, ∀ r ∈ utf8Rows, ∀ r' ∈ utf8Rows,
    r.first.holds b = true → r'.first.holds b = true → r = r' := by
  decide +kernel

/-- A row begins a sequence whose first bytes satisfy its ranges, whatever follows. -/
theorem beginsWith_append {rs : List ByteRange} {p q : List Byte} (h : p.length = rs.length) :
    beginsWith rs (p ++ q) = beginsWith rs p := by
  induction rs generalizing p with
  | nil => simp [beginsWith]
  | cons r rs ih =>
    match p, h with
    | b :: p, h =>
      simp only [List.cons_append, beginsWith]
      rw [ih (by simpa using h)]

/-- A row needs as many bytes as it has ranges. -/
theorem length_le_of_beginsWith {rs : List ByteRange} {s : List Byte}
    (h : beginsWith rs s = true) : rs.length ≤ s.length := by
  induction rs generalizing s with
  | nil => simp
  | cons r rs ih =>
    match s, h with
    | b :: s, h =>
      simp only [beginsWith, Bool.and_eq_true] at h
      simpa using ih h.2

/-- One sequence of the table, in terms of the rows (43_chunk_codec R108). -/
theorem utf8Sequence_iff (b : Byte) (bs : List Byte) :
    Utf8Sequence ((b :: bs).map BitVec.toNat) ↔
      ∃ r ∈ utf8Rows, r.first.holds b = true ∧ bs.length = r.rest.length ∧
        beginsWith r.rest bs = true := by
  match bs with
  | [] => simp [utf8Rows, ByteRange.holds, beginsWith, Utf8Sequence]
  | [c] =>
    simp [utf8Rows, ByteRange.holds, beginsWith, Utf8Sequence]
  | [c, d] =>
    simp [utf8Rows, ByteRange.holds, beginsWith, Utf8Sequence]
    omega
  | [c, d, e] =>
    simp [utf8Rows, ByteRange.holds, beginsWith, Utf8Sequence]
    omega
  | c :: d :: e :: f :: bs => simp [utf8Rows, Utf8Sequence]

/-- The scan step at a first byte, once its row is known. -/
theorem utf8Head_of_row {b : Byte} {bs : List Byte} {r : Utf8Row}
    (hf : utf8Rows.find? (fun r => r.first.holds b) = some r) :
    utf8Head (b :: bs) = if beginsWith r.rest bs then some (1 + r.rest.length) else none := by
  simp only [utf8Head, hf]

/-- The scan step at a first byte of no row. -/
theorem utf8Head_of_noRow {b : Byte} {bs : List Byte}
    (hf : utf8Rows.find? (fun r => r.first.holds b) = none) : utf8Head (b :: bs) = none := by
  simp only [utf8Head, hf]

/-- `utf8Head` finds exactly the sequence of the table that is a prefix (43_chunk_codec R109). -/
theorem utf8Head_eq_some {s : List Byte} {k : Nat} : utf8Head s = some k ↔
    k ≤ s.length ∧ Utf8Sequence ((s.take k).map BitVec.toNat) := by
  match s with
  | [] => simp [utf8Head, Utf8Sequence]
  | b :: bs =>
    cases hf : utf8Rows.find? (fun r => r.first.holds b) with
    | none =>
      rw [utf8Head_of_noRow hf]
      refine ⟨nofun, fun ⟨hk, h⟩ => ?_⟩
      match k with
      | 0 => simp [Utf8Sequence] at h
      | k + 1 =>
        rw [List.take_succ_cons, utf8Sequence_iff] at h
        obtain ⟨r, hr, hb, -⟩ := h
        exact absurd hb (List.find?_eq_none.1 hf r hr)
    | some r =>
      have hrow : r.first.holds b = true :=
        List.find?_some (p := fun r : Utf8Row => r.first.holds b) hf
      rw [utf8Head_of_row hf]
      constructor
      · intro h
        by_cases hb : beginsWith r.rest bs = true
        · rw [if_pos hb] at h
          have hl := length_le_of_beginsWith hb
          have hk := Option.some.inj h
          subst hk
          refine ⟨by simp only [List.length_cons]; omega, ?_⟩
          rw [Nat.add_comm, List.take_succ_cons, utf8Sequence_iff]
          refine ⟨r, List.mem_of_find?_eq_some hf, hrow, by simpa using hl, ?_⟩
          rw [← beginsWith_append (q := bs.drop r.rest.length) (by simpa using hl),
            List.take_append_drop]
          exact hb
        · rw [if_neg hb] at h
          exact absurd h (by simp)
      · rintro ⟨hk, h⟩
        match k with
        | 0 => simp [Utf8Sequence] at h
        | k + 1 =>
          rw [List.take_succ_cons, utf8Sequence_iff] at h
          obtain ⟨r', hr, hb, hl, hw⟩ := h
          have he := utf8Rows_disjoint b r (List.mem_of_find?_eq_some hf) r' hr hrow hb
          subst he
          have hl' : k = r.rest.length := by
            rw [List.length_take] at hl
            simp only [List.length_cons] at hk
            omega
          have hw' : beginsWith r.rest bs = true := by
            rw [← List.take_append_drop k bs, beginsWith_append hl]
            exact hw
          rw [if_pos hw', hl', Nat.add_comm]

/-- A recognised sequence has a byte. -/
theorem utf8Head_pos {s : List Byte} {k : Nat} (h : utf8Head s = some k) : 0 < k := by
  match k, utf8Head_eq_some.1 h with
  | 0, ⟨_, h⟩ => exact h.elim
  | k + 1, _ => exact k.succ_pos

theorem wellFormedText_nil : WellFormedText [] := ⟨[], nofun, rfl⟩

/-- A sequence before well-formed text is well-formed text. -/
theorem wellFormedText_append {p s : List Byte} (hp : Utf8Sequence (p.map BitVec.toNat))
    (hs : WellFormedText s) : WellFormedText (p ++ s) := by
  obtain ⟨parts, h, rfl⟩ := hs
  exact ⟨p :: parts, List.forall_mem_cons.2 ⟨hp, h⟩, by simp⟩

/-- Well-formed text that is not empty begins with the sequence `utf8Head` finds, and the rest is
well-formed again. -/
theorem wellFormedText_cases {s : List Byte} (h : WellFormedText s) :
    s = [] ∨ ∃ k, utf8Head s = some k ∧ WellFormedText (s.drop k) := by
  obtain ⟨parts, h, rfl⟩ := h
  match parts with
  | [] => exact .inl rfl
  | p :: ps =>
    right
    have hp := h p (by simp)
    refine ⟨p.length, utf8Head_eq_some.2 ⟨by simp, by simpa using hp⟩, ps, fun q hq =>
      h q (by simp [hq]), by simp⟩

end Sys2Proof.Claims
end

