-- ==== Sys2Proof/Tests/Slice0.lean ====
section
/-! SUPPORT. The model's own tests: ill-formed terms that `WellFormed` refuses, a word for every
constructor, one-step vectors of 95_test_vectors, and for every statement with hypotheses a
theorem that meets them. -/

namespace Sys2Proof.Tests

-- One theorem at a time: each kernel evaluation waits for those before it and holds a thread.
set_option Elab.async false

open Sys2Proof.Machine Sys2Proof.Claims

/-! ## Helpers -/

/-- A view of the state `exec` answers, if it answers a next state. -/
def after {α : Type} (i : Instr) (s : State) (view : State → α) : Option α :=
  match exec i s with
  | .next t => some (view t)
  | .fault _ => none
  | .refused _ => none

/-- A view of the state a step answers, if it answers a next state. -/
def stepped {α : Type} (s : State) (view : State → α) : Option α :=
  match step s with
  | .next t => some (view t)
  | .fault _ => none
  | .refused _ => none

/-- Reset, then operands. -/
def args (a n d : Word) : State := { State.reset with arg0 := a, arg1 := n, arg2 := d }

/-- Reset, with a type in CT. -/
def typed (t : Word) : State := { State.reset with ct := t, ctPresent := true }

/-- Reset, with a chunk in the chunk register. -/
def holding (t : Word) (data : List Byte) : State :=
  { State.reset with
    chType := t, chLen := BitVec.ofNat 32 data.length, pl := data, chPresent := true }

/-- Reset, with host actions to come. -/
def todo (l : List HostAction) : State := { State.reset with pending := l }

/-- A faulted engine (V95), with host actions to come. -/
def faultedTodo (l : List HostAction) : State :=
  { State.reset with faultCode := some .illegalCommand, pending := l }

/-- Reset, with `bytes` at address 0 and the source range over them. -/
def buffer (bytes : List Byte) : State :=
  { State.reset.withStart 0 bytes with arg1 := BitVec.ofNat 32 bytes.length }

/-- The empty "RuSt" record (95_test_vectors V79). -/
def emptyRecord : List Byte :=
  [0x00, 0x00, 0x00, 0x00, 0x52, 0x75, 0x53, 0x74, 0xd4, 0x84, 0x09, 0x3c]

/-- The payload of the known vector (95_test_vectors). -/
def msg : List Byte :=
  [0x54, 0x68, 0x69, 0x73, 0x20, 0x69, 0x73, 0x20] ++
  [0x77, 0x68, 0x65, 0x72, 0x65, 0x20, 0x79, 0x6f, 0x75, 0x72, 0x20, 0x73, 0x65, 0x63, 0x72, 0x65] ++
  [0x74, 0x20, 0x6d, 0x65, 0x73, 0x73, 0x61, 0x67, 0x65, 0x20, 0x77, 0x69, 0x6c, 0x6c, 0x20, 0x62] ++
  [0x65, 0x21]

/-- The known-vector record (95_test_vectors). -/
def kv : List Byte :=
  [0x00, 0x00, 0x00, 0x2a, 0x52, 0x75, 0x53, 0x74] ++ msg ++ [0xab, 0xd1, 0xd8, 0x4e]

/-- The outcome columns of the vectors: the error, its context and RESULT. -/
def outcome (t : State) : Option ErrKind × Word × Word × Word :=
  (t.err, t.errInfo0, t.errInfo1, t.result)

/-- The outcome columns of the vectors: FAULT and FAULT_INFO. -/
def faultView (t : State) : Word × Word := (t.faultWord, t.faultInfo)

/-! ## WellFormed: an ill-formed term for each check -/

-- 00_scope R10: MEM_SIZE = 0 and MEM_SIZE = 2^32.
theorem test_wf_memSize_zero : ({ Config.vectors with memSize := 0 } : Config).wf = false := by decide
theorem test_wf_memSize_big : ({ Config.vectors with memSize := 2 ^ 32 } : Config).wf = false := by
  decide
theorem test_wf_memSize_top : ({ Config.vectors with memSize := 2 ^ 32 - 1 } : Config).wf = true := by
  decide
-- 00_scope R11: PAYLOAD_CAP = 2^32 − 12.
theorem test_wf_payloadCap_big :
    ({ Config.vectors with payloadCap := 2 ^ 32 - 12 } : Config).wf = false := by decide
-- 30_encoding R72, one bullet each: V96, V101, V103.
theorem test_wf_opcode : CommandWord.opcodeOk 0x00000005 = false := by decide
theorem test_wf_reserved : CommandWord.reservedOk 0x00010001 = false := by decide
theorem test_wf_immediate : CommandWord.immediateOk 0x00000110 = false := by decide
theorem test_wf_word : CommandWord.wf 0x0000FF02 = true ∧ CommandWord.wf 0x00000028 = true := by decide
-- 20_memory R53, R66: a narrow, a wider, a misaligned and an out-of-window access, a byte past `mem`.
theorem test_wf_access : HostAction.wf Config.vectors (.regWrite .byte 0x00 1) = false ∧
    HostAction.wf Config.vectors (.regWrite .other 0x00 1) = false ∧
    HostAction.wf Config.vectors (.regRead .word 0x02) = false ∧
    HostAction.wf Config.vectors (.regRead .word 0x40) = false ∧
    HostAction.wf Config.vectors (.memWrite 256 0) = false ∧
    HostAction.wf Config.vectors (.memRead 256) = false := by decide

/-! ## Decoding: a word for every constructor (30_encoding R68, R71) -/

theorem test_decode_crcInit : decode 0x00000001 = .ok .crcInit := by decide
-- OPCODE 0000_0010 in bits 7:0, IMM8 0110_0001 in bits 15:8 (V3).
theorem test_decode_crcUpdateByte :
    decode 0b0000000000000000_01100001_00000010 = .ok (.crcUpdateByte 0x61) := by decide
theorem test_decode_crcUpdate : decode 0x00000003 = .ok .crcUpdate := by decide
theorem test_decode_crcGet : decode 0x00000004 = .ok .crcGet := by decide
-- OPCODE 0001_0000, IMM8 and RSV zero.
theorem test_decode_ctNew : decode 0b0000000000000000_00000000_00010000 = .ok .ctNew := by decide
theorem test_decode_ctFromString : decode 0x00000011 = .ok .ctFromString := by decide
theorem test_decode_ctBytes : decode 0x00000012 = .ok .ctBytes := by decide
theorem test_decode_ctIsCritical : decode 0x00000013 = .ok .ctIsCritical := by decide
theorem test_decode_ctIsPublic : decode 0x00000014 = .ok .ctIsPublic := by decide
theorem test_decode_ctIsReservedBitValid : decode 0x00000015 = .ok .ctIsReservedBitValid := by
  decide
theorem test_decode_ctIsSafeToCopy : decode 0x00000016 = .ok .ctIsSafeToCopy := by decide
theorem test_decode_ctIsValid : decode 0x00000017 = .ok .ctIsValid := by decide
theorem test_decode_ctToString : decode 0x00000018 = .ok .ctToString := by decide
theorem test_decode_ctEq : decode 0x00000019 = .ok .ctEq := by decide
theorem test_decode_chunkNew : decode 0x00000020 = .ok .chunkNew := by decide
theorem test_decode_chunkLength : decode 0x00000021 = .ok .chunkLength := by decide
theorem test_decode_chunkCrc : decode 0x00000022 = .ok .chunkCrc := by decide
theorem test_decode_chunkDataAsText : decode 0x00000023 = .ok .chunkDataAsText := by decide
theorem test_decode_chunkSerialize : decode 0x00000024 = .ok .chunkSerialize := by decide
-- OPCODE 0010_0101, IMM8 and RSV zero.
theorem test_decode_chunkParse : decode 0b0000000000000000_00000000_00100101 = .ok .chunkParse := by
  decide
theorem test_decode_chunkParseNext : decode 0x00000026 = .ok .chunkParseNext := by decide
theorem test_decode_chunkData : decode 0x00000027 = .ok .chunkData := by decide
theorem test_decode_chunkType : decode 0x00000028 = .ok .chunkType := by decide
-- V95 to V103: words that are illegal, by the reason.
theorem test_decode_illegal : decode 0x00000000 = .error .unknownOpcode ∧
    decode 0x0000000F = .error .unknownOpcode ∧ decode 0x0000001A = .error .unknownOpcode ∧
    decode 0x00000029 = .error .unknownOpcode ∧ decode 0x80000025 = .error .reservedNotZero ∧
    decode 0x00016102 = .error .reservedNotZero ∧ decode 0x00000101 = .error .immediateNotZero := by
  decide

/-! ## One-step vectors (95_test_vectors) -/

-- V2.
theorem test_crcInit : after .crcInit { State.reset with crcAcc := 0x174841BC }
    (fun t => (t.crcAcc, t.result)) = some (0xFFFFFFFF, 0) := by decide +kernel
-- V4; and the single step of 95_test_vectors 2.1.
theorem test_crcUpdateByte_zero : after (.crcUpdateByte 0x00) State.reset (fun t => t.crcAcc) =
    some 0x2DFD1072 := by decide +kernel
theorem test_crcUpdateByte : after (.crcUpdateByte 0x9A) { State.reset with crcAcc := 0x12345678 }
    (fun t => t.crcAcc) = some 0x4E16B702 := by decide +kernel
-- V5, and V11: the sum does not wrap.
theorem test_crcUpdate : after .crcUpdate
    ((args 0x40 9 0).withStart 0x40 [0x31, 0x32, 0x33, 0x34, 0x35, 0x36, 0x37, 0x38, 0x39])
    (fun t => t.crcAcc) = some 0x340BC6D9 := by decide +kernel
theorem test_crcUpdate_range : after .crcUpdate (args 0xFFFFFFFF 2 0)
    (fun t => (t.faultWord, t.faultInfo, t.crcAcc)) =
      some (0x00000302, 0xFFFFFFFF, 0xFFFFFFFF) := by decide +kernel
-- V3.
theorem test_crcGet : after .crcGet { State.reset with crcAcc := 0x174841BC }
    (fun t => (t.result, t.crcAcc)) = some (0xE8B7BE43, 0x174841BC) := by decide +kernel
-- V24, and 2.3 "RuSt".
theorem test_ctNew_error : after .ctNew { typed 0x49484452 with arg0 := 0x52753174 }
    (fun t => (outcome t, t.ct)) =
      some ((some .invalidCharacter, 2, 0x31, 0), 0x49484452) := by decide +kernel
theorem test_ctNew : after .ctNew (args 0x52755374 0 0) (fun t => (t.result, t.ct, t.status)) =
    some (0x52755374, 0x52755374, 0x00000100) := by decide +kernel
-- V30, and V33: the range is checked before the length.
theorem test_ctFromString_utf8 : after .ctFromString
    ((args 0x10 4 0).withStart 0x10 [0xc3, 0xa9, 0x61, 0x62]) outcome =
      some (some .invalidCharacter, 0, 0xC3, 0) := by decide +kernel
theorem test_ctFromString_range : after .ctFromString (args 253 5 0) faultView =
    some (0x00001102, 0x000000FD) := by decide +kernel
-- 2.3 "tEXt", and V35.
theorem test_ctBytes : after .ctBytes (typed 0x74455874) (fun t => t.result) = some 0x74455874 := by
  decide +kernel
theorem test_ctBytes_noType : after .ctBytes State.reset faultView =
    some (0x00001203, 0) := by decide +kernel
-- 2.3 "RuSt" and "tEXt".
theorem test_ctIsCritical : after .ctIsCritical (typed 0x52755374) (fun t => t.result) = some 1 ∧
    after .ctIsCritical (typed 0x74455874) (fun t => t.result) = some 0 := by decide +kernel
theorem test_ctIsPublic : after .ctIsPublic (typed 0x52755374) (fun t => t.result) = some 0 ∧
    after .ctIsPublic (typed 0x74455874) (fun t => t.result) = some 1 := by decide +kernel
-- 2.3 "RuSt" and "Rust".
theorem test_ctIsReservedBitValid :
    after .ctIsReservedBitValid (typed 0x52755374) (fun t => t.result) = some 1 ∧
    after .ctIsReservedBitValid (typed 0x52757374) (fun t => t.result) = some 0 := by decide +kernel
-- 2.3 "AAAa" and "aaaA".
theorem test_ctIsSafeToCopy :
    after .ctIsSafeToCopy (typed 0x41414161) (fun t => t.result) = some 1 ∧
    after .ctIsSafeToCopy (typed 0x61616141) (fun t => t.result) = some 0 := by decide +kernel
-- 2.3 "AbCd" and "aBcD".
theorem test_ctIsValid : after .ctIsValid (typed 0x41624364) (fun t => t.result) = some 1 ∧
    after .ctIsValid (typed 0x61426344) (fun t => t.result) = some 0 := by decide +kernel
-- V43 and V44: the top of `mem`.
theorem test_ctToString : after .ctToString { typed 0x52755374 with arg2 := 252 }
    (fun t => (t.result, t.mem)) =
      some (4, [(252, 0x52), (253, 0x75), (254, 0x53), (255, 0x74)]) := by decide +kernel
theorem test_ctToString_range : after .ctToString { typed 0x52755374 with arg2 := 253 }
    (fun t => (t.faultWord, t.faultInfo, t.mem)) = some (0x00001802, 0x000000FD, []) := by
  decide +kernel
-- V39 and V40.
theorem test_ctEq : after .ctEq { typed 0x52755374 with arg0 := 0x52755374 }
    (fun t => t.result) = some 1 ∧
    after .ctEq { typed 0x52755374 with arg0 := 0x52757374 } (fun t => t.result) = some 0 := by
  decide +kernel
-- V48, and V50: the range fails before the capacity.
theorem test_chunkNew_capacity : after .chunkNew { typed 0x52755374 with arg1 := 201 }
    (fun t => (t.faultWord, t.faultInfo, t.chPresent)) = some (0x00002005, 0xC9, false) := by
  decide +kernel
theorem test_chunkNew_range : after .chunkNew { typed 0x52755374 with arg0 := 100, arg1 := 201 }
    (fun t => (t.faultWord, t.faultInfo)) = some (0x00002002, 0x64) := by decide +kernel
-- V57, and V51.
theorem test_chunkLength : after .chunkLength (holding 0x52755374 msg) (fun t => t.result) =
    some 0x2A := by decide +kernel
theorem test_chunkLength_noChunk : after .chunkLength State.reset faultView =
    some (0x00002104, 0) := by decide +kernel
-- V58, and V46.
theorem test_chunkCrc : after .chunkCrc { holding 0x52755374 msg with crcAcc := 0x12345678 }
    (fun t => (t.result, t.crcAcc)) = some (0xABD1D84E, 0x12345678) := by decide +kernel
theorem test_chunkCrc_empty : after .chunkCrc (holding 0x52755374 []) (fun t => t.result) =
    some 0xD484093C := by decide +kernel
-- V68, and V71.
theorem test_chunkDataAsText_truncated : after .chunkDataAsText
    { holding 0x74455874 [0x61, 0x62, 0xe2, 0x82] with arg2 := 0x80 }
    (fun t => (outcome t, t.mem)) = some ((some .invalidEncoding, 2, 0xE2, 0), []) := by
  decide +kernel
theorem test_chunkDataAsText : after .chunkDataAsText
    { holding 0x74455874 [0xf0, 0x9f, 0x98, 0x80] with arg2 := 0x80 }
    (fun t => (t.result, t.mem)) =
      some (4, [(0x80, 0xf0), (0x81, 0x9f), (0x82, 0x98), (0x83, 0x80)]) := by decide +kernel
-- V59, and V61.
theorem test_chunkSerialize : after .chunkSerialize { holding 0x52755374 msg with arg2 := 0x80 }
    (fun t => (t.result, t.mem.readBytes 0x80 54, t.crcAcc)) = some (0x36, kv, 0xFFFFFFFF) := by
  decide +kernel
theorem test_chunkSerialize_range : after .chunkSerialize { holding 0x52755374 msg with arg2 := 203 }
    (fun t => (t.faultWord, t.faultInfo, t.mem)) = some (0x00002402, 0xCB, []) := by decide +kernel
-- V78, and V92: the CRC is checked before trailing data.
theorem test_chunkParse : after .chunkParse (buffer kv)
    (fun t => (outcome t, t.chType, t.pl)) =
      some ((none, 0, 0, 0x36), 0x52755374, msg) := by decide +kernel
theorem test_chunkParse_crc_first : after .chunkParse (buffer (kv.dropLast ++ [0x4f, 0x00])) outcome =
    some (some .crcMismatch, 0xABD1D84E, 0xABD1D84F, 0) := by decide +kernel
-- V93, and V86: 12 + len is not wrapped.
theorem test_chunkParseNext : after .chunkParseNext (buffer (kv ++ emptyRecord))
    (fun t => (t.result, t.chLen, t.arg0, t.arg1)) =
      some (0x36, 42, 54, 12) := by decide +kernel
theorem test_chunkParseNext_long : after .chunkParseNext
    (buffer ([0xff, 0xff, 0xff, 0xff] ++ emptyRecord.drop 4)) outcome =
      some (some .lengthExceedsBuffer, 0xFFFFFFFF, 0, 0) := by decide +kernel
-- P5, step 21, and V55.
theorem test_chunkData : after .chunkData { holding 0x74455874 [0x61, 0x62, 0xff] with arg2 := 0x50 }
    (fun t => (t.result, t.mem)) = some (3, [(0x50, 0x61), (0x51, 0x62), (0x52, 0xff)]) := by
  decide +kernel
theorem test_chunkData_noChunk : after .chunkData State.reset faultView =
    some (0x00002704, 0) := by decide +kernel
-- V64, and V56.
theorem test_chunkType : after .chunkType (holding 0x52755374 msg)
    (fun t => (t.result, t.ct, t.ctPresent)) = some (0x52755374, 0x52755374, true) := by
  decide +kernel
theorem test_chunkType_noChunk : after .chunkType State.reset faultView =
    some (0x00002804, 0) := by decide +kernel

/-! ## Steps of the host (95_test_vectors 2.5, 20_memory R66) -/

-- V102.
theorem test_step_illegal : stepped (State.reset.withFetchWord 32 0x80000025)
    (fun t => (t.faultWord, t.faultInfo, t.cmd)) = some (0x00002501, 0x80000025, 0x80000025) := by
  decide +kernel
-- V14.
theorem test_step_command : stepped (State.reset.withFetchWord 32 0x0000FF02)
    (fun t => (t.crcAcc, t.result, t.cmd)) = some (0x00FFFFFF, 0, 0x0000FF02) := by decide +kernel
-- V104, its second and fourth actions.
theorem test_step_sticky : stepped (faultedTodo [.regWrite .word 0x00 0x00000001])
    (fun t => (t.cmd, t.faulted)) = some (0, true) := by decide +kernel
theorem test_step_readOnly : stepped (faultedTodo [.regWrite .word 0x10 9]) (fun t => t.result) =
    some 0 := by decide +kernel
-- V108.
theorem test_step_read : stepped { todo [.regRead .word 0x04] with arg0 := 0xDEADBEEF }
    (fun t => t.replies) = some [.reg 0xDEADBEEF] := by decide +kernel
-- P4, step 10: FAULTED and the ERR of the parse before it.
theorem test_status : (faulted 0x27 .noChunk 0 (errored .crcMismatch 0 0 State.reset)).status =
    0x00010007 := by decide
-- 30_encoding R77, 95_test_vectors P3, lines 1 to 3.
theorem test_assemble : assemble [.chunkParseNext 0x00 0x42] =
    [.regWrite .word 0x04 0x00, .regWrite .word 0x08 0x42, .regWrite .word 0x00 0x26] := by decide

/-! ## Witnesses: for every statement with hypotheses, a state and operands that meet them -/

/-- The premises of `OnlyWordOf`: the word of an opcode, and another with the same OPCODE field. -/
abbrev WordsOf (op : Byte) : Prop :=
  (op.setWidth 32).toNat % 256 = op.toNat ∧ (op.setWidth 32 ||| 0x100).toNat % 256 = op.toNat ∧
    op.setWidth 32 ||| 0x100 ≠ op.setWidth 32 ∧
    NextAction (todo [.regWrite .word 0x00 (op.setWidth 32 ||| 0x100)])
      (.regWrite .word 0x00 (op.setWidth 32 ||| 0x100)) []

/-- `exec i s` answers a next state. -/
abbrev Answers (i : Instr) (s : State) : Prop := after i s (fun _ => true) = some true

/-- The empty record at the top of `mem`, with the source range over it. -/
def topRecord : State := (args 244 12 0).withStart 244 emptyRecord

/-- "RuSt". -/
def rust : List Byte := [0x52, 0x75, 0x53, 0x74]

/-- A buffer of 12 bytes and `n` more that declares the length `len` and has letters for its type. -/
def declaring (len : Byte) (n : Nat) : State :=
  buffer ([0, 0, 0, len] ++ rust ++ List.replicate (4 + n) 0)

theorem witness_OpcodeMapDecodes :
    decode 0x00000003 = .ok .crcUpdate ∧ (0x00000003 : Word).toNat % 256 ≠ 0x02 := by decide

theorem witness_IllegalWordsFault_opcodes : IllegalBits 0x00000000 ∧ IllegalBits 0x00000005 ∧
    IllegalBits 0x0000000F ∧ IllegalBits 0x0000001A ∧ IllegalBits 0x0000001F ∧
    IllegalBits 0x00000029 := by decide

theorem witness_IllegalWordsFault : IllegalBits 0x00010001 ∧ IllegalBits 0x00000110 ∧
    ¬ IllegalBits 0x0000FF02 ∧ ¬ IllegalBits 0x00000028 ∧
    NextAction (todo [.regWrite .word 0x00 0x80000025]) (.regWrite .word 0x00 0x80000025) [] ∧
    (todo [.regWrite .word 0x00 0x80000025]).faultCode = none := by decide

theorem witness_EncodeDecodeAgree : decode 0x0000FF02 = .ok (.crcUpdateByte 0xFF) := by decide

theorem witness_StepRunsDecodedCommand :
    (NextAction (todo [.regWrite .word 0x00 0x28]) (.regWrite .word 0x00 0x28) [] ∧
      (todo [.regWrite .word 0x00 0x28]).faultCode = none ∧ decode 0x28 = .ok .chunkType) ∧
    (State.reset.refusedMark = false ∧ State.reset.faultCode = none ∧
      decodeTableWord 32 0xFF02 = some (.crcUpdateByte 0xFF)) := by decide

theorem witness_FaultIsStickyUntilReset : ∀ a ∈ [HostAction.regWrite .word 0x00 1,
    .regWrite .word 0x04 1, .regWrite .word 0x08 1, .regWrite .word 0x0C 1, .regRead .word 0x3C,
    .memRead 255, .assertReset],
    (faultedTodo [a]).refusedMark = false ∧ (faultedTodo [a]).faultCode ≠ none ∧
    (faultedTodo [a]).pending = [a] ∧ stepped (faultedTodo [a]) (fun _ => true) = some true := by
  decide +kernel

theorem witness_DutifulHostNeverStops :
    (todo [.regWrite .word 0x3C 1, .regRead .word 0x00, .memWrite 255 1, .memRead 0,
      .assertReset]).refusedMark = false ∧
    (∀ a ∈ [HostAction.regWrite .word 0x3C 1, .regRead .word 0x00, .memWrite 255 1, .memRead 0,
      .assertReset], a.wf State.reset.cfg = true) ∧ State.reset.pending = [] := by decide

theorem witness_RegisterReadReturnsValue :
    NextAction (todo [.regRead .word 0x00]) (.regRead .word 0x00) [] ∧
    NextAction (todo [.regRead .word 0x3C]) (.regRead .word 0x3C) [] := by decide

theorem witness_RegisterWriteStoresOrIsIgnored :
    ∀ off ∈ [0x04, 0x08, 0x0C, 0x10, 0x3C],
      NextAction (todo [.regWrite .word off 1]) (.regWrite .word off 1) [] ∧ off % 4 = 0 ∧
        off ≤ 0x3C := by decide

theorem witness_UndefinedAccessIsRefused :
    (NextAction (todo [.regWrite .byte 0x00 1]) (.regWrite .byte 0x00 1) [] ∧
      AccessWidth.byte ≠ .word) ∧
    (NextAction (todo [.regRead .other 0x04]) (.regRead .other 0x04) [] ∧
      AccessWidth.other ≠ .word) ∧
    (NextAction (todo [.regRead .word 0x3E]) (.regRead .word 0x3E) [] ∧ 0x3E % 4 ≠ 0) ∧
    NextAction (todo [.regRead .word 0x40]) (.regRead .word 0x40) [] ∧
    ({ State.reset with refusedMark := true } : State).refusedMark = true := by decide

theorem witness_HostMemoryBytes :
    (∀ a ∈ [0, 255, 256], NextAction (todo [.memWrite a 1]) (.memWrite a 1) [] ∧
      NextAction (todo [.memRead a]) (.memRead a) []) ∧
    State.reset.mem.wf ∧ 255 < State.reset.cfg.memSize ∧ State.reset.cfg.memSize ≤ 256 := by decide

theorem witness_ResetSetsEveryRegister :
    NextAction (faultedTodo [.assertReset, .regWrite .word 0x00 1]) .assertReset
      [.regWrite .word 0x00 1] ∧
    stepped (faultedTodo [.assertReset, .regWrite .word 0x00 1]) (fun t => t.pending) =
      some [.regWrite .word 0x00 1] := by decide +kernel

theorem witness_StatusIsTheView :
    NextAction (todo [.regRead .word 0x14]) (.regRead .word 0x14) [] ∧
    NextAction (todo [.regWrite .word 0x14 9]) (.regWrite .word 0x14 9) [] := by decide

/-- A CMD write of `w` to come, and what else holds. -/
def commanding (w : Word) (s : State) : State := { s with pending := [.regWrite .word 0x00 w] }

theorem witness_DispatchOrder :
    (NextAction (faultedTodo [.regWrite .word 0x00 1]) (.regWrite .word 0x00 1) [] ∧
      (faultedTodo [.regWrite .word 0x00 1]).faultCode ≠ none) ∧
    (NextAction (commanding 0x05 State.reset) (.regWrite .word 0x00 0x05) [] ∧
      decode 0x05 = .error .unknownOpcode) ∧
    (decode 0x20 = .ok .chunkNew ∧ Instr.chunkNew ∈ NeedsCt ∧
      (commanding 0x20 State.reset).ctPresent = false) ∧
    (decode 0x27 = .ok .chunkData ∧ Instr.chunkData ∈ NeedsCh ∧
      (commanding 0x27 State.reset).chPresent = false) ∧
    (decode 0x03 = .ok .crcUpdate ∧ Present (commanding 0x03 (args 257 0 0)) .crcUpdate ∧
      Instr.crcUpdate ∈ SrcOps ∧ ¬ SourceInMem (commanding 0x03 (args 257 0 0))) ∧
    (decode 0x18 = .ok .ctToString ∧ (Instr.ctToString, 4) ∈ DstOps State.reset ∧
      Present (commanding 0x18 { typed 0x52755374 with arg2 := 253 }) .ctToString ∧
      ¬ DestInMem (commanding 0x18 { typed 0x52755374 with arg2 := 253 }) 4) ∧
    (Present (commanding 0x18 { typed 0x52755374 with arg2 := 252 }) .ctToString ∧
      Instr.ctToString ∉ SrcOps ∧
      (∀ p ∈ DstOps (commanding 0x18 { typed 0x52755374 with arg2 := 252 }), p.1 = .ctToString →
        DestInMem (commanding 0x18 { typed 0x52755374 with arg2 := 252 }) p.2)) := by
  decide +kernel

theorem witness_CrcUpdateIsIncremental :
    (State.reset.cfg.wf = true ∧ (args 250 6 0).arg1.toNat = (6 : Word).toNat + (0 : Word).toNat ∧
      SourceInMem (args 250 6 0) ∧ Answers .crcUpdate (args 250 6 0) ∧
      Answers .crcUpdate (args (250 + 6) 0 0)) ∧
    ((args 255 1 0).arg1 = 1 ∧ SourceInMem (args 255 1 0) ∧ Answers .crcUpdate (args 255 1 0) ∧
      Answers (.crcUpdateByte ((args 255 1 0).mem.read 255)) (args 255 1 0)) := by decide +kernel

theorem witness_CrcInitCommand : WordsOf 0x01 := by decide

theorem witness_CrcUpdateByteCommand :
    ((0x0000FF02 : Word).toNat % 256 = 0x02 ∧ (0x0000FF02 : Word).toNat / 2 ^ 16 = 0) ∧
    ((0x00016102 : Word).toNat % 256 = 0x02 ∧ (0x00016102 : Word).toNat / 2 ^ 16 ≠ 0) := by decide

theorem witness_CrcUpdateCommand : WordsOf 0x03 ∧ SourceInMem (args 256 0 0) ∧
    ¬ SourceInMem (args 257 0 0) := by decide

theorem witness_CrcGetCommand : WordsOf 0x04 := by decide

theorem witness_CtNewCommand : WordsOf 0x10 ∧
    (∀ k, k < 4 → Letter (byteAt (args 0x41617A5A 0 0).arg0 k)) ∧
    ((∀ j, j < 3 → Letter (byteAt (args 0x41617A5B 0 0).arg0 j)) ∧
      ¬ Letter (byteAt (args 0x41617A5B 0 0).arg0 3)) ∧
    ¬ Letter (byteAt (args 0x60414141 0 0).arg0 0) := by decide

theorem witness_CtFromStringCommand : WordsOf 0x11 ∧
    (SourceInMem ((args 252 4 0).withStart 252 rust) ∧
      TypeBytes (bytesAt ((args 252 4 0).withStart 252 rust).mem 252 4)) ∧
    ¬ SourceInMem (args 253 4 0) ∧
    (SourceInMem (args 251 5 0) ∧ (args 251 5 0).arg1 ≠ 4) ∧
    (SourceInMem ((args 252 4 0).withStart 252 [0x41, 0x5A, 0x61, 0x7B]) ∧
      (∀ j, j < 3 →
        Letter (((args 252 4 0).withStart 252 [0x41, 0x5A, 0x61, 0x7B]).mem.read (252 + j)).toNat) ∧
      ¬ Letter (((args 252 4 0).withStart 252 [0x41, 0x5A, 0x61, 0x7B]).mem.read (252 + 3)).toNat) := by
  decide +kernel

/-- The premises of `TypeQuery`. -/
abbrev TypeQueryMet (op : Byte) : Prop :=
  WordsOf op ∧ (typed 0x52755374).ctPresent = true ∧ State.reset.ctPresent = false

theorem witness_CtBytesCommand : TypeQueryMet 0x12 := by decide
theorem witness_CtIsCriticalCommand : TypeQueryMet 0x13 := by decide
theorem witness_CtIsPublicCommand : TypeQueryMet 0x14 := by decide
theorem witness_CtIsReservedBitValidCommand : TypeQueryMet 0x15 := by decide
theorem witness_CtIsSafeToCopyCommand : TypeQueryMet 0x16 := by decide
theorem witness_CtIsValidCommand : TypeQueryMet 0x17 := by decide
theorem witness_CtEqCommand : TypeQueryMet 0x19 := by decide

theorem witness_CtToStringCommand : TypeQueryMet 0x18 ∧
    ((typed 0x52755374).mem.wf ∧ DestInMem { typed 0x52755374 with arg2 := 252 } 4) ∧
    ¬ DestInMem { typed 0x52755374 with arg2 := 253 } 4 := by decide

theorem witness_PropertiesAreCaseBits : (typed 0x52755374).TypeInv ∧
    (typed 0x52755374).ctPresent = true := by decide

theorem witness_ChunkNewCommand : WordsOf 0x20 ∧ State.reset.ctPresent = false ∧
    (typed 0x52755374).ctPresent = true ∧
    (SourceInMem { typed 0x52755374 with arg0 := 56, arg1 := 200 } ∧
      (200 : Word).toNat ≤ State.reset.cfg.payloadCap) ∧
    ¬ SourceInMem { typed 0x52755374 with arg0 := 57, arg1 := 200 } ∧
    (SourceInMem { typed 0x52755374 with arg0 := 55, arg1 := 201 } ∧
      State.reset.cfg.payloadCap < (201 : Word).toNat) := by decide

/-- The premises of `ChunkQuery`. -/
abbrev ChunkQueryMet (op : Byte) : Prop :=
  WordsOf op ∧ (holding 0x52755374 []).chPresent = true ∧ State.reset.chPresent = false

theorem witness_ChunkLengthCommand : ChunkQueryMet 0x21 := by decide
theorem witness_ChunkCrcCommand : ChunkQueryMet 0x22 := by decide
theorem witness_ChunkTypeCommand : ChunkQueryMet 0x28 := by decide

/-- A chunk of one byte, with its destination at an address. -/
def oneByte (b : Byte) (d : Word) : State := { holding 0x74455874 [b] with arg2 := d }

theorem witness_text : WellFormedText [0x7F] := ⟨[[0x7F]], by simp [Utf8Sequence], rfl⟩

theorem witness_prefix : LongestTextPrefix [0x80] 0 := by
  refine ⟨by decide, wellFormedText_nil, fun i hi h => ?_⟩
  match i, hi with
  | 0, _ => exact le_refl 0
  | 1, _ =>
    rcases wellFormedText_cases h with h | ⟨k, hk, -⟩
    · exact absurd h (by decide)
    · exact absurd hk (by rw [show utf8Head (List.take 1 [0x80]) = none by decide]; exact nofun)

theorem witness_ChunkDataAsTextCommand : ChunkQueryMet 0x23 ∧
    ((oneByte 0x7F 255).mem.wf ∧ (oneByte 0x7F 255).pl.length = (oneByte 0x7F 255).chLen.toNat ∧
      DestInMem (oneByte 0x7F 255) 1 ∧ WellFormedText (oneByte 0x7F 255).pl) ∧
    ¬ DestInMem (oneByte 0x7F 256) 1 ∧
    (DestInMem (oneByte 0x80 255) 1 ∧ LongestTextPrefix (oneByte 0x80 255).pl 0 ∧
      (oneByte 0x80 255).pl[0]? = some 0x80) :=
  ⟨by decide, ⟨by decide, by decide, by decide, witness_text⟩, by decide, by decide, witness_prefix,
    rfl⟩

theorem witness_ChunkSerializeCommand : ChunkQueryMet 0x24 ∧
    ((oneByte 0x7F 243).mem.wf ∧ (oneByte 0x7F 243).pl.length = (oneByte 0x7F 243).chLen.toNat ∧
      (oneByte 0x7F 243).pl.length ≤ 2 ^ 32 - 13 ∧ DestInMem (oneByte 0x7F 243) (12 + 1)) ∧
    ¬ DestInMem (oneByte 0x7F 244) (12 + 1) := by decide

theorem witness_ChunkDataCommand : ChunkQueryMet 0x27 ∧
    ((oneByte 0x7F 255).mem.wf ∧ (oneByte 0x7F 255).pl.length = (oneByte 0x7F 255).chLen.toNat ∧
      DestInMem (oneByte 0x7F 255) 1) ∧ ¬ DestInMem (oneByte 0x7F 256) 1 := by decide

theorem witness_record : RecordAtSource topRecord rust [] ∧ topRecord.cfg.wf = true ∧
    topRecord.mem.wf ∧ topRecord.arg1.toNat = 12 := by decide +kernel

theorem witness_trailing : RecordAtSource (buffer (emptyRecord ++ [0])) rust [] ∧
    12 + ([] : List Byte).length < (buffer (emptyRecord ++ [0])).arg1.toNat := by decide +kernel

theorem witness_parseRange : ¬ SourceInMem (args 250 7 0) ∧
    (SourceInMem (args 245 11 0) ∧ (args 245 11 0).arg1.toNat < 12) := by decide

theorem witness_parseCharacter :
    let s := buffer ([0, 0, 0, 0, 0x41, 0x5A, 0x61, 0x7B] ++ emptyRecord.drop 8)
    SourceInMem s ∧ 12 ≤ s.arg1.toNat ∧ (∀ j, j < 3 → Letter (s.mem.read (0 + 4 + j)).toNat) ∧
      ¬ Letter (s.mem.read (0 + 4 + 3)).toNat := by decide +kernel

theorem witness_parseLength : SourceInMem (declaring 1 0) ∧ 12 ≤ (declaring 1 0).arg1.toNat ∧
    TypeBytes (typeBytes (declaring 1 0)) ∧
    (declaring 1 0).arg1.toNat < 12 + declaredLen (declaring 1 0) := by decide +kernel

theorem witness_parseCapacity :
    let s := { declaring 1 1 with cfg := { Config.vectors with payloadCap := 0 } }
    SourceInMem s ∧ TypeBytes (typeBytes s) ∧ 12 + declaredLen s ≤ s.arg1.toNat ∧
      s.cfg.payloadCap < declaredLen s := by decide +kernel

theorem witness_parseCrc : SourceInMem (declaring 0 0) ∧ TypeBytes (typeBytes (declaring 0 0)) ∧
    12 + declaredLen (declaring 0 0) ≤ (declaring 0 0).arg1.toNat ∧
    declaredLen (declaring 0 0) ≤ (declaring 0 0).cfg.payloadCap ∧
    recomputedCrc (declaring 0 0) ≠ storedCrc (declaring 0 0) := by decide +kernel

-- CHUNK_PARSE and CHUNK_PARSE_NEXT: with the seven witnesses above.
theorem witness_ChunkParseCommand : WordsOf 0x25 := by decide
theorem witness_ChunkParseNextCommand : WordsOf 0x26 := by decide

theorem witness_SerializeParseRoundTrip :
    let s := { typed 0x52755374 with arg0 := 252, arg1 := 4 }
    s.Inv ∧ s.ctPresent = true ∧ SourceInMem s ∧ s.arg1.toNat ≤ s.cfg.payloadCap ∧
      (240 : Word).toNat + 12 + s.arg1.toNat ≤ s.cfg.memSize := by decide +kernel

theorem witness_SingleBitTamperDetected : topRecord.mem.wf ∧ RecordAtSource topRecord rust [] ∧
    topRecord.arg1.toNat = 12 + ([] : List Byte).length ∧ 7 < 8 ∧ topRecord.arg0.toNat + 8 ≤ 255 ∧
    255 < topRecord.arg0.toNat + 12 + ([] : List Byte).length := by decide +kernel

theorem witness_StreamOfTwoRecords :
    let s := (args 232 24 0).withStart 232 (emptyRecord ++ emptyRecord)
    s.cfg.wf = true ∧ SourceInMem s ∧ TypeBytes rust ∧ s.arg1.toNat = (12 + 0) + (12 + 0) ∧
      bytesAt s.mem s.arg0.toNat s.arg1.toNat = wire rust [] ++ wire rust [] := by decide +kernel

theorem witness_InvariantAtReset :
    ({ memSize := 1, payloadCap := 0, engineBase := 0 } : Config).wf = true ∧
    Memory.wf [(0, 1)] ∧ Memory.inside 1 [(0, 1)] := by decide

theorem witness_StepKeepsInvariant : (todo [.memWrite 255 1]).Inv ∧
    stepped (todo [.memWrite 255 1]) (fun _ => true) = some true := by decide +kernel

theorem witness_FailureIsAtomic : State.reset.faultCode = none ∧
    after .ctBytes State.reset (fun t => t.faultCode) = some (some .noType) ∧
    after .ctNew State.reset (fun t => (t.faultCode, t.err)) =
      some (none, some .invalidCharacter) := by decide +kernel

theorem witness_EveryCommandEndsOneWay : State.reset.faultCode = none := rfl

theorem witness_RegisterFrame : Answers .ctBytes (typed 0x52755374) := by decide +kernel

theorem witness_MemoryFrame : (oneByte 0x7F 0x50).pl.length = (oneByte 0x7F 0x50).chLen.toNat ∧
    Answers .chunkData (oneByte 0x7F 0x50) ∧ dstLen (oneByte 0x7F 0x50) .chunkData = some 1 ∧
    (oneByte 0x7F 0x50).arg2.toNat + 1 ≤ 0x51 := by decide +kernel

theorem witness_ReadsOnlySourceRange :
    (usesSource .crcUpdate = true ∧ Memory.read [(1, 5)] 0 = (args 0 1 0).mem.read 0 ∧
      Answers .crcUpdate (args 0 1 0) ∧ Answers .crcUpdate { args 0 1 0 with mem := [(1, 5)] }) ∧
    (dstLen (oneByte 0x7F 0x50) .chunkData = some 1 ∧
      (oneByte 0x7F 0x50).pl.length = (oneByte 0x7F 0x50).chLen.toNat ∧
      (oneByte 0x7F 0x50).mem.wf ∧ Memory.wf [(1, 5)] ∧
      after .chunkData (oneByte 0x7F 0x50) (fun t => (t.faultCode, t.err)) = some (none, none) ∧
      Answers .chunkData { oneByte 0x7F 0x50 with mem := [(1, 5)] }) := by decide +kernel

theorem witness_CodecIgnoresCrcAcc : Answers .chunkCrc (holding 0x52755374 []) ∧
    Answers .chunkCrc { holding 0x52755374 [] with crcAcc := 0 } := by decide +kernel

theorem witness_PayloadUnobservableWithoutChunk :
    (todo [.regWrite .word 0x00 0x22]).chPresent = false ∧
    stepped (todo [.regWrite .word 0x00 0x22]) (fun _ => true) = some true := by decide +kernel

theorem witness_OnlyResetClearsPresence :
    let s := { typed 0x52755374 with chPresent := true, pending := [.regWrite .word 0x00 0x10] }
    stepped s (fun _ => true) = some true ∧ s.pending.head? ≠ some .assertReset ∧
      s.ctPresent = true ∧ s.chPresent = true := by decide +kernel

end Sys2Proof.Tests
end

section
/-! The ways a command ends (60_exceptions R125, R126, R129, R131): no write before `complete` touches
the fault registers, so a command's end alone decides between fault, error and success. -/

namespace Sys2Proof.Machine

/-- The fault registers are written by `raiseFault` only (60_exceptions R129). -/
theorem BodyWrite.keeps_fault {i : Instr} {s t : State} (h : BodyWrite i s t) :
    t.faultCode = s.faultCode ∧ t.faultOpcode = s.faultOpcode ∧ t.faultInfo = s.faultInfo := by
  cases h <;> simp

/-- Settles O51: by `exec_cases` every command answers a next state, and each of its three ends leaves
the registers of one of the three disjuncts. -/
theorem everyCommandEndsOneWay : Obligations.EveryCommandEndsOneWay := by
  intro i s hs
  obtain ⟨t, ht, hends⟩ := exec_cases i s
  refine ⟨t, ht, ?_⟩
  cases hends with
  | fault code info => exact .inl (by simp)
  | error kind i0 i1 => exact .inr (.inl (by simp [hs]))
  | success v hw =>
    obtain ⟨hcode, hop, hinfo⟩ := hw.keeps_fault
    exact .inr (.inr (by simp [hcode, hop, hinfo, hs]))

end Sys2Proof.Machine
end

section
/-! The invariant of the engine (10_state R36, R39, 43_chunk_codec R106): one lemma per state
operation, then per relation of `exec_cases` and `ActionStep`, up to the step. -/

namespace Sys2Proof.Machine

/-! ## Reset -/

/-- No type and no chunk is present after reset, so the invariant asks only for `mem` and the
parameters. -/
theorem State.inv_resetWith {c : Config} {m : Memory} (hc : c.wf = true) (hm : m.wf)
    (hi : m.inside c.memSize) : (State.resetWith c m).Inv :=
  ⟨hc, ⟨hm, hi⟩, nofun, nofun, ⟨fun _ => ⟨rfl, rfl⟩, fun _ => rfl⟩, fun _ => ⟨rfl, rfl⟩⟩

/-- Settles O48: `State.reset` is the reset of the instance `Config.vectors` with an empty `mem`. -/
theorem invariantAtReset : Obligations.InvariantAtReset :=
  ⟨State.inv_resetWith (by decide) ⟨.nil, nofun⟩ nofun, fun _ _ => State.inv_resetWith⟩

/-! ## The state's operations -/

section Operations

variable {s : State} (h : s.Inv)
include h

theorem State.inv_engineReset : s.engineReset.Inv := by
  obtain ⟨hcfg, ⟨hwf, hin⟩, -, -, -, -⟩ := h
  exact State.inv_resetWith hcfg hwf hin

theorem State.inv_complete (v : Word) : (s.complete v).Inv := by
  obtain ⟨hcfg, hmem, htype, hchunk, -, hfault⟩ := h
  exact ⟨hcfg, hmem, htype, hchunk, ⟨fun _ => ⟨rfl, rfl⟩, fun hn => absurd rfl hn⟩, hfault⟩

theorem State.inv_raiseError (k : ErrKind) (i0 i1 : Word) : (s.raiseError k i0 i1).Inv := by
  obtain ⟨hcfg, hmem, htype, hchunk, -, hfault⟩ := h
  exact ⟨hcfg, hmem, htype, hchunk, ⟨nofun, fun _ => rfl⟩, hfault⟩

theorem State.inv_raiseFault (op : Byte) (c : FaultCode) (info : Word) :
    (s.raiseFault op c info).Inv := by
  obtain ⟨hcfg, hmem, htype, hchunk, herr, -⟩ := h
  exact ⟨hcfg, hmem, htype, hchunk, herr, nofun⟩

theorem State.inv_putType {w : Word} (hw : LettersOnly w) : (s.putType w).Inv := by
  obtain ⟨hcfg, hmem, -, hchunk, herr, hfault⟩ := h
  exact ⟨hcfg, hmem, fun _ => hw, hchunk, herr, hfault⟩

theorem State.inv_putChunk {ty len : Word} {data : List Byte} (hty : LettersOnly ty)
    (hd : data.length = len.toNat) (hc : len.toNat ≤ s.cfg.payloadCap) :
    (s.putChunk ty len data).Inv := by
  obtain ⟨hcfg, hmem, htype, -, herr, hfault⟩ := h
  exact ⟨hcfg, hmem, htype, fun _ => ⟨hty, hd, hc⟩, herr, hfault⟩

theorem State.inv_putBytes {a : Nat} {bs : List Byte} (ha : a + bs.length ≤ s.cfg.memSize) :
    (s.putBytes a bs).Inv := by
  obtain ⟨hcfg, ⟨hwf, hin⟩, htype, hchunk, herr, hfault⟩ := h
  exact ⟨hcfg, ⟨Memory.wf_writeBytes hwf a bs, Memory.inside_writeBytes hin bs ha⟩, htype, hchunk,
    herr, hfault⟩

end Operations

/-! ## Commands and steps -/

/-- The writes of a command keep the invariant: a type that is loaded is letters, or comes from a
register that holds letters already, and the destination range lies in `mem`. -/
theorem BodyWrite.inv {i : Instr} {s t : State} (hs : s.Inv) (h : BodyWrite i s t) : t.Inv := by
  obtain ⟨-, -, htype, hchunk, -, -⟩ := id hs
  cases h with
  | none => exact hs
  | crcAcc v _ => exact hs
  | type w _ hw => exact State.inv_putType hs (hw.elim id fun ⟨hp, he⟩ => he ▸ (hchunk hp).1)
  | chunk ty len data _ hw hd hc =>
    exact State.inv_putChunk hs (hw.elim id fun ⟨hp, he⟩ => he ▸ htype hp) hd hc
  | chunkNext ty len a n data _ hw hd hc => exact State.inv_putChunk hs hw hd hc
  | bytes n bs _ hr _ hl =>
    have hlen : bs.length = n := hl fun hp => (hchunk hp).2.1
    exact State.inv_putBytes hs (hlen ▸ hr)

theorem Ends.inv {i : Instr} {s t : State} (hs : s.Inv) (h : Ends i s t) : t.Inv := by
  cases h with
  | fault code info => exact State.inv_raiseFault hs ..
  | error kind i0 i1 => exact State.inv_raiseError hs ..
  | success v hw => exact State.inv_complete (hw.inv hs) v

/-- CMD is no part of the invariant. -/
theorem CommandStep.inv {s t : State} (hs : s.Inv) (h : CommandStep s t) : t.Inv := by
  cases h with
  | ignored _ => exact hs
  | ran w i t _ _ he => exact he.inv (s := { s with cmd := w }) hs
  | illegal w _ => exact State.inv_raiseFault (s := { s with cmd := w }) hs ..

theorem ActionStep.inv {s t : State} (hs : s.Inv) (h : ActionStep s t) : t.Inv := by
  cases h with
  | command h => exact h.inv hs
  | memory a b ha => exact State.inv_putBytes (a := a) (bs := [b]) hs ha
  | args a b c => exact hs
  | reply r => exact hs
  | mark => exact hs
  | same => exact hs

/-- Everything a step that answers a next state can do: hold, reset, or one of `ActionStep`. -/
theorem step_cases {s t : State} (h : step s = .next t) :
    t = s ∨
    (∃ rest, s.pending = .assertReset :: rest ∧
      t = ({ s with pending := rest } : State).engineReset) ∨
    ∃ rest, ActionStep { s with pending := rest } t := by
  obtain ⟨-, ⟨-, rfl⟩ | ⟨a, rest, hp, ha⟩⟩ := step_next_cases h
  · exact .inl rfl
  · by_cases hr : a = .assertReset
    · subst hr
      injection ha with ha
      exact .inr (.inl ⟨rest, hp, ha.symm⟩)
    · exact .inr (.inr ⟨rest, actionStep_of_takeAction hr ha⟩)

/-- Settles O49: the host's list of actions is no part of the invariant, and reset and every other
action keep it. -/
theorem stepKeepsInvariant : Obligations.StepKeepsInvariant := by
  intro s t hs h
  obtain rfl | ⟨rest, -, rfl⟩ | ⟨rest, ha⟩ := step_cases h
  · exact hs
  · exact State.inv_engineReset (s := { s with pending := rest }) hs
  · exact ha.inv (s := { s with pending := rest }) hs

end Sys2Proof.Machine
end

section
/-! What no command and no step changes: the register frame (10_state R27, R33, R35, R38), the
parameters (00_scope R10 to R12), and the presence flags outside reset. -/

namespace Sys2Proof.Machine

/-- Settles O52: a fault and an error write none of these registers, and each write of `BodyWrite`
belongs to the commands the statement excepts. -/
theorem registerFrame : Obligations.RegisterFrame := by
  intro i s t h
  cases ends_of_exec h with
  | fault code info => simp
  | error kind i0 i1 => simp
  | success v hw =>
    cases hw with
    | none => simp
    | crcAcc w hi => obtain rfl | ⟨b, rfl⟩ | rfl := hi <;> simp
    | type w hi _ => obtain rfl | rfl | rfl := hi <;> simp
    | chunk ty len data hi _ _ _ => obtain rfl | rfl := hi <;> simp
    | chunkNext ty len a n data hi _ _ _ => simp [hi]
    | bytes n bs _ _ _ _ => simp

/-- The parameters as they were, and neither presence flag cleared. -/
def KeepsPresence (s t : State) : Prop :=
  t.cfg = s.cfg ∧ (s.ctPresent = true → t.ctPresent = true) ∧
    (s.chPresent = true → t.chPresent = true)

theorem KeepsPresence.refl (s : State) : KeepsPresence s s := ⟨rfl, id, id⟩

/-- A command writes the presence flags by loading CT or the chunk register only. -/
theorem Ends.keepsPresence {i : Instr} {s t : State} (h : Ends i s t) : KeepsPresence s t := by
  cases h with
  | fault code info => exact .refl s
  | error kind i0 i1 => exact .refl s
  | success v hw => cases hw <;> simp [KeepsPresence]

theorem CommandStep.keepsPresence {s t : State} (h : CommandStep s t) : KeepsPresence s t := by
  cases h with
  | ignored _ => exact .refl s
  | ran w i t _ _ he => exact he.keepsPresence
  | illegal w _ => exact .refl s

theorem ActionStep.keepsPresence {s t : State} (h : ActionStep s t) : KeepsPresence s t := by
  cases h with
  | command h => exact h.keepsPresence
  | args a b c => exact .refl s
  | reply r => exact .refl s
  | mark => exact .refl s
  | memory a b _ => exact .refl s
  | same => exact .refl s

/-- Settles O57: reset keeps the parameters, every other action the presence flags too. -/
theorem onlyResetClearsPresence : Obligations.OnlyResetClearsPresence := by
  intro s t h
  obtain rfl | ⟨rest, hp, rfl⟩ | ⟨rest, ha⟩ := step_cases h
  · exact ⟨rfl, fun _ => ⟨id, id⟩⟩
  · exact ⟨rfl, fun hr => absurd (by simp [hp]) hr⟩
  · obtain ⟨hcfg, hpresence⟩ := ha.keepsPresence
    exact ⟨hcfg, fun _ => hpresence⟩

end Sys2Proof.Machine
end

section
/-! Noninterference of commands, said once: `alike_exec`. Two runs of one command from states that
agree in everything the command reads (10_state R33, R39, 20_memory R54) end alike: with the same
writes of the same values. -/

namespace Sys2Proof.Machine

/-! ## What a command reads, and two ends with the same writes -/

/-- The two states agree in everything the command reads. Of `mem` that is its source range
(20_memory R54), of PL nothing without a chunk (10_state R39), and CRC_ACC is read by the CRC
commands alone (10_state R33). -/
structure SameReads (i : Instr) (s s' : State) : Prop where
  arg0 : s'.arg0 = s.arg0
  arg1 : s'.arg1 = s.arg1
  arg2 : s'.arg2 = s.arg2
  ct : s'.ct = s.ct
  ctPresent : s'.ctPresent = s.ctPresent
  chType : s'.chType = s.chType
  chLen : s'.chLen = s.chLen
  chPresent : s'.chPresent = s.chPresent
  cfg : s'.cfg = s.cfg
  pl : s.chPresent = true → s'.pl = s.pl
  crcAcc : (∃ b, i = .crcUpdateByte b) ∨ i = .crcUpdate ∨ i = .crcGet → s'.crcAcc = s.crcAcc
  source : usesSource i = true → ∀ x, s.arg0.toNat ≤ x → x < s.arg0.toNat + s.arg1.toNat →
    s'.mem.read x = s.mem.read x

/-- Two ends of one command, reached from `s` and `s'` by the same writes of the same values. -/
inductive EndAlike (i : Instr) (s s' : State) : State → State → Prop where
  | fault (op : Byte) (code : FaultCode) (info : Word) :
      EndAlike i s s' (s.raiseFault op code info) (s'.raiseFault op code info)
  | error (kind : ErrKind) (i0 i1 : Word) :
      EndAlike i s s' (s.raiseError kind i0 i1) (s'.raiseError kind i0 i1)
  | complete (r : Word) : EndAlike i s s' (s.complete r) (s'.complete r)
  | crcAcc (v r : Word) (hi : i = .crcInit ∨ (∃ b, i = .crcUpdateByte b) ∨ i = .crcUpdate) :
      EndAlike i s s' ((s.putCrcAcc v).complete r) ((s'.putCrcAcc v).complete r)
  | type (w r : Word) : EndAlike i s s' ((s.putType w).complete r) ((s'.putType w).complete r)
  | chunk (ty len r : Word) (data : List Byte) :
      EndAlike i s s' ((s.putChunk ty len data).complete r) ((s'.putChunk ty len data).complete r)
  | chunkNext (ty len a n r : Word) (data : List Byte) :
      EndAlike i s s' (((s.putChunk ty len data).putRemainder a n).complete r)
        (((s'.putChunk ty len data).putRemainder a n).complete r)
  | bytes (bs : List Byte) (r : Word) (n : Nat) (hn : dstLen s i = some n)
      (hl : (s.chPresent = true → s.pl.length = s.chLen.toNat) → bs.length = n) :
      EndAlike i s s' ((s.putBytes s.dstAddr bs).complete r)
        ((s'.putBytes s.dstAddr bs).complete r)

/-! ## The operands of the two runs -/

namespace SameReads

variable {i : Instr} {s s' : State} (h : SameReads i s s')
include h

theorem srcAddr : s'.srcAddr = s.srcAddr := congrArg BitVec.toNat h.arg0

theorem srcLen : s'.srcLen = s.srcLen := congrArg BitVec.toNat h.arg1

theorem dstAddr : s'.dstAddr = s.dstAddr := congrArg BitVec.toNat h.arg2

theorem srcBytes (hi : usesSource i = true) : s'.srcBytes = s.srcBytes := by
  rw [State.srcBytes, h.srcAddr, h.srcLen]
  exact Memory.readBytes_congr (h.source hi)

theorem parse (hi : usesSource i = true) (streaming : Bool) :
    s'.parse streaming = s.parse streaming := by
  rw [State.parse, h.srcAddr, h.srcLen, h.cfg]
  exact parseRecord_congr (h.source hi)

end SameReads

/-- Two runs take the same way through the first stages (30_encoding R74), and end alike if their
own rules do. -/
theorem SameReads.dispatch {i : Instr} {s s' body body' : State} (h : SameReads i s s')
    (hb : Ready i s → EndAlike i s s' body body') :
    EndAlike i s s' (dispatch i s body) (Machine.dispatch i s' body') := by
  have hn : dstLen s' i = dstLen s i := by cases i <;> simp only [dstLen, h.chLen]
  have hd : dstOk i s' = dstOk i s := by simp only [dstOk, hn, h.cfg, h.dstAddr]
  unfold Machine.dispatch
  rw [h.ctPresent, h.chPresent, h.cfg, h.srcAddr, h.srcLen, hd, h.arg0, h.arg2]
  split_ifs with htype hchunk hsource hdest
  · exact .fault ..
  · exact .fault ..
  · exact .fault ..
  · exact .fault ..
  · refine hb ⟨by simpa using htype, by simpa using hchunk, ?_, dstOk_iff.1 (by simpa using hdest)⟩
    simpa [rangeOk_eq_false, State.srcAddr, State.srcLen] using hsource

/-! ## The commands -/

theorem EndAlike.constructType {i : Instr} (b : List Byte) (packed : Word) (s s' : State) :
    EndAlike i s s' (constructType b packed s) (Machine.constructType b packed s') := by
  unfold Machine.constructType
  cases validate b with
  | none => exact .type _ _
  | some p => exact .error _ _ _

/-- Two runs of one command that agree in everything the command reads end alike. -/
theorem alike_exec {i : Instr} {s s' : State} (h : SameReads i s s') :
    ∃ t t', exec i s = .next t ∧ exec i s' = .next t' ∧ EndAlike i s s' t t' := by
  cases i with
  | crcInit => exact ⟨_, _, rfl, rfl, h.dispatch fun _ => .crcAcc _ _ (by simp)⟩
  | crcUpdateByte b =>
    refine ⟨_, _, rfl, rfl, h.dispatch fun _ => ?_⟩
    rw [h.crcAcc (by simp)]
    exact .crcAcc _ _ (by simp)
  | crcUpdate =>
    refine ⟨_, _, rfl, rfl, h.dispatch fun _ => ?_⟩
    rw [h.crcAcc (by simp), h.srcBytes rfl]
    exact .crcAcc _ _ (by simp)
  | crcGet =>
    refine ⟨_, _, rfl, rfl, h.dispatch fun _ => ?_⟩
    rw [h.crcAcc (by simp)]
    exact .complete _
  | ctNew =>
    refine ⟨_, _, rfl, rfl, h.dispatch fun _ => ?_⟩
    rw [h.arg0]
    exact .constructType ..
  | ctFromString =>
    refine ⟨_, _, rfl, rfl, h.dispatch fun _ => ?_⟩
    rw [h.srcLen]
    split
    · rename_i hl
      have hb : s'.mem.readBytes s'.srcAddr 4 = s.mem.readBytes s.srcAddr 4 := by
        have := h.srcBytes rfl
        rwa [State.srcBytes, State.srcBytes, h.srcLen, hl] at this
      rw [hb]
      exact .constructType ..
    · rw [h.arg1]
      exact .error ..
  | ctBytes | ctIsCritical | ctIsPublic | ctIsReservedBitValid | ctIsSafeToCopy | ctIsValid =>
    refine ⟨_, _, rfl, rfl, h.dispatch fun _ => ?_⟩
    rw [h.ct]
    exact .complete _
  | ctToString =>
    refine ⟨_, _, rfl, rfl, h.dispatch fun _ => ?_⟩
    rw [h.ct, h.dstAddr]
    exact .bytes _ _ 4 rfl fun _ => rfl
  | ctEq =>
    refine ⟨_, _, rfl, rfl, h.dispatch fun _ => ?_⟩
    rw [h.ct, h.arg0]
    exact .complete _
  | chunkNew =>
    refine ⟨_, _, rfl, rfl, h.dispatch fun _ => ?_⟩
    rw [h.cfg, h.srcLen, h.ct, h.arg1, h.srcBytes rfl]
    split
    · exact .fault ..
    · exact .chunk ..
  | chunkLength =>
    refine ⟨_, _, rfl, rfl, h.dispatch fun _ => ?_⟩
    rw [h.chLen]
    exact .complete _
  | chunkCrc =>
    refine ⟨_, _, rfl, rfl, h.dispatch fun hr => ?_⟩
    rw [h.chType, h.pl (hr.chunk rfl)]
    exact .complete _
  | chunkDataAsText =>
    refine ⟨_, _, rfl, rfl, h.dispatch fun hr => ?_⟩
    rw [h.chLen, h.pl (hr.chunk rfl), h.dstAddr]
    split
    · exact .error ..
    · exact .bytes _ _ _ rfl fun hp => hp (hr.chunk rfl)
  | chunkSerialize =>
    refine ⟨_, _, rfl, rfl, h.dispatch fun hr => ?_⟩
    rw [h.chLen, h.chType, h.pl (hr.chunk rfl), h.dstAddr]
    refine .bytes _ _ _ rfl fun hp => ?_
    have := hp (hr.chunk rfl)
    simp only [recordBytes, List.length_append, length_toBe32, length_unpack]
    omega
  | chunkParse =>
    refine ⟨_, _, rfl, rfl, h.dispatch fun _ => ?_⟩
    rw [h.parse rfl, h.srcLen, h.arg1]
    cases s.parse false with
    | error kind i0 i1 => exact .error ..
    | fault code info => exact .fault ..
    | accept ty len data =>
      dsimp only
      split
      · exact .error ..
      · exact .chunk ..
  | chunkParseNext =>
    refine ⟨_, _, rfl, rfl, h.dispatch fun _ => ?_⟩
    rw [h.parse rfl, h.srcLen, h.srcAddr]
    cases s.parse true with
    | error kind i0 i1 => exact .error ..
    | fault code info => exact .fault ..
    | accept ty len data => exact .chunkNext ..
  | chunkData =>
    refine ⟨_, _, rfl, rfl, h.dispatch fun hr => ?_⟩
    rw [h.chLen, h.pl (hr.chunk rfl), h.dstAddr]
    exact .bytes _ _ _ rfl fun hp => hp (hr.chunk rfl)
  | chunkType =>
    refine ⟨_, _, rfl, rfl, h.dispatch fun _ => ?_⟩
    rw [h.chType]
    exact .type _ _

/-! ## CRC_ACC -/

/-- Every command but the three that read CRC_ACC reads the same with another CRC_ACC. -/
theorem sameReads_putCrcAcc {i : Instr} (s : State) (v : Word) (hb : ∀ b, i ≠ .crcUpdateByte b)
    (hu : i ≠ .crcUpdate) (hg : i ≠ .crcGet) : SameReads i s (s.putCrcAcc v) where
  arg0 := rfl
  arg1 := rfl
  arg2 := rfl
  ct := rfl
  ctPresent := rfl
  chType := rfl
  chLen := rfl
  chPresent := rfl
  cfg := rfl
  pl _ := rfl
  crcAcc := by
    rintro (⟨b, hi⟩ | hi | hi)
    · exact absurd hi (hb b)
    · exact absurd hi hu
    · exact absurd hi hg
  source _ _ _ _ := rfl

/-- Settles O55: the two runs end alike, and no end but that of CRC_INIT, CRC_UPDATE_BYTE and
CRC_UPDATE writes CRC_ACC. -/
theorem codecIgnoresCrcAcc : Obligations.CodecIgnoresCrcAcc := by
  intro i s t t' v hinit hb hu hg ht ht'
  obtain ⟨u, u', hu1, hu2, hends⟩ := alike_exec (sameReads_putCrcAcc s v hb hu hg)
  cases hu1.symm.trans ht
  cases hu2.symm.trans ht'
  cases hends with
  | crcAcc w r hi => exact absurd hi (by simp [hinit, hb, hu])
  | fault op code info => rfl
  | error kind i0 i1 => rfl
  | complete r => rfl
  | type w r => rfl
  | chunk ty len r data => rfl
  | chunkNext ty len a n r data => rfl
  | bytes bs r n _ _ => rfl

/-! ## PL without a chunk -/

/-- `s` with other contents of PL. -/
def State.withPl (p : List Byte) (s : State) : State := { s with pl := p }

/-- Without a chunk every command reads the same with other contents of PL. -/
theorem sameReads_withPl {i : Instr} {s : State} (h : s.chPresent = false) (p : List Byte) :
    SameReads i s (s.withPl p) where
  arg0 := rfl
  arg1 := rfl
  arg2 := rfl
  ct := rfl
  ctPresent := rfl
  chType := rfl
  chLen := rfl
  chPresent := rfl
  cfg := rfl
  pl hp := by rw [h] at hp; cases hp
  crcAcc _ := rfl
  source _ _ _ _ := rfl

/-- The same state, or two states without a chunk that differ in PL alone. -/
def SameButPl (p : List Byte) (t t' : State) : Prop :=
  t' = t ∨ (t.chPresent = false ∧ t' = t.withPl p)

/-- Whenever the one outcome is a next state, so is the other, and the two states are the same but
for PL. -/
def AnswersButPl (p : List Byte) (o o' : Host.Outcome State Fault Refusal) : Prop :=
  ∀ t, o = .next t → ∃ t', o' = .next t' ∧ SameButPl p t t'

theorem answersButPl_same (p : List Byte) (o : Host.Outcome State Fault Refusal) :
    AnswersButPl p o o := fun t ht => ⟨t, ht, .inl rfl⟩

theorem answersButPl_next {p : List Byte} {t t' : State} (h : t.chPresent = false)
    (ht : t' = t.withPl p) : AnswersButPl p (.next t) (.next t') := by
  rintro _ ⟨⟩
  exact ⟨_, rfl, .inr ⟨h, ht⟩⟩

section WithPl

variable {s : State} (h : s.chPresent = false) (p : List Byte)
include h

/-- A command that loads the chunk register loads PL too, and no other touches PL or CH_PRESENT. -/
theorem exec_withPl (i : Instr) : AnswersButPl p (exec i s) (exec i (s.withPl p)) := by
  obtain ⟨t, t', ht, ht', hends⟩ := alike_exec (sameReads_withPl (i := i) h p)
  rw [ht, ht']
  cases hends with
  | chunk ty len r data => exact answersButPl_same p _
  | chunkNext ty len a n r data => exact answersButPl_same p _
  | fault op code info => exact answersButPl_next h rfl
  | error kind i0 i1 => exact answersButPl_next h rfl
  | complete r => exact answersButPl_next h rfl
  | crcAcc v r _ => exact answersButPl_next h rfl
  | type w r => exact answersButPl_next h rfl
  | bytes bs r n _ _ => exact answersButPl_next h rfl

theorem commandWrite_withPl (w : Word) :
    AnswersButPl p (s.commandWrite w) ((s.withPl p).commandWrite w) := by
  unfold State.commandWrite
  rw [show (s.withPl p).faulted = s.faulted from rfl]
  split
  · exact answersButPl_next h rfl
  · cases decode w with
    | ok i => exact exec_withPl (s := { s with cmd := w }) h p i
    | error e => exact answersButPl_next h rfl

theorem writeRegister_withPl (off : Nat) (v : Word) :
    AnswersButPl p (s.writeRegister off v) ((s.withPl p).writeRegister off v) := by
  unfold State.writeRegister
  split
  · exact commandWrite_withPl h p v
  · exact answersButPl_next h rfl
  · exact answersButPl_next h rfl
  · exact answersButPl_next h rfl
  · exact answersButPl_next h rfl

/-- No host action sees PL, and reset makes the two states one. -/
theorem takeAction_withPl (a : HostAction) :
    AnswersButPl p (s.takeAction a) ((s.withPl p).takeAction a) := by
  have hsize : (s.withPl p).cfg.memSize = s.cfg.memSize := rfl
  cases a with
  | regWrite width off v =>
    simp only [State.takeAction]
    split
    · exact writeRegister_withPl h p off v
    · exact answersButPl_next h rfl
  | regRead width off =>
    simp only [State.takeAction]
    split
    · exact answersButPl_next h rfl
    · exact answersButPl_next h rfl
  | memWrite addr b =>
    simp only [State.takeAction, hsize]
    split
    · exact answersButPl_next h rfl
    · exact nofun
  | memRead addr =>
    simp only [State.takeAction, hsize]
    split
    · exact answersButPl_next h rfl
    · exact nofun
  | assertReset => exact answersButPl_same p _

end WithPl

/-- Settles O56: an idle step holds the one difference in PL, and no host action sees it. -/
theorem payloadUnobservableWithoutChunk : Obligations.PayloadUnobservableWithoutChunk := by
  intro s t p h ht
  obtain ⟨hm, ⟨hp, rfl⟩ | ⟨a, rest, hp, ha⟩⟩ := step_next_cases ht
  · exact ⟨_, step_idle hm hp, .inr ⟨h, rfl⟩⟩
  · obtain ⟨t', ht', hsame⟩ := takeAction_withPl (s := { s with pending := rest }) h p a t ha
    exact ⟨t', (step_takeAction (s := { s with pl := p }) hm hp).trans ht', hsame⟩

end Sys2Proof.Machine
end

section
/-! The register window (10_state R24, R25, R27), the views STATUS and FAULT (R29, R31), and the CRC
table ROM (R43). -/

namespace Sys2Proof.Machine

open Sys2Proof.Claims

/-! ## Reads and writes of the window -/

/-- An aligned 32-bit access inside the window has a meaning (20_memory R53). -/
theorem registerAccessOk_word {off : Nat} (ha : off % 4 = 0) (hw : off ≤ 0x3C) :
    registerAccessOk .word off = true := by
  simp [registerAccessOk, ha, hw]

/-- No register is a view of the host's list of actions. -/
theorem readRegister_pending (s : State) (rest : List HostAction) (off : Nat) :
    ({ s with pending := rest } : State).readRegister off = s.readRegister off := rfl

/-- A step at an aligned read replies with the register and changes nothing else (10_state R25). -/
theorem step_regRead {s : State} {off : Nat} {rest : List HostAction}
    (h : NextAction s (.regRead .word off) rest) (ha : off % 4 = 0) (hw : off ≤ 0x3C) :
    step s = .next { s with
      pending := rest, replies := .reg (s.readRegister off) :: s.replies } := by
  obtain ⟨hm, hp⟩ := h
  rw [step_takeAction hm hp, State.takeAction, if_pos (registerAccessOk_word ha hw),
    readRegister_pending]
  rfl

/-- A step at an aligned write is the write of the register (10_state R25). -/
theorem step_regWrite {s : State} {off : Nat} {v : Word} {rest : List HostAction}
    (h : NextAction s (.regWrite .word off v) rest) (ha : off % 4 = 0) (hw : off ≤ 0x3C) :
    step s = ({ s with pending := rest } : State).writeRegister off v := by
  obtain ⟨hm, hp⟩ := h
  rw [step_takeAction hm hp, State.takeAction, if_pos (registerAccessOk_word ha hw)]

/-- Every offset from RESULT on is read-only or reserved (10_state R24, R25). -/
theorem writeRegister_readOnly {off : Nat} (h : 0x10 ≤ off) (v : Word) (s : State) :
    s.writeRegister off v = .next s := by
  unfold State.writeRegister
  split
  · omega
  · omega
  · omega
  · omega
  · rfl

/-- Settles O7: the sixteen offsets, each with the register `readRegister` gives there. -/
theorem registerReadReturnsValue : Obligations.RegisterReadReturnsValue := by
  intro s off v rest h hv
  have key : off % 4 = 0 ∧ off ≤ 0x3C ∧ s.readRegister off = v := by
    simp only [List.mem_cons, List.not_mem_nil, or_false, Prod.mk.injEq] at hv
    obtain ⟨rfl, rfl⟩ | ⟨rfl, rfl⟩ | ⟨rfl, rfl⟩ | ⟨rfl, rfl⟩ | ⟨rfl, rfl⟩ | ⟨rfl, rfl⟩ |
      ⟨rfl, rfl⟩ | ⟨rfl, rfl⟩ | ⟨rfl, rfl⟩ | ⟨rfl, rfl⟩ | ⟨rfl, rfl⟩ | ⟨rfl, rfl⟩ | ⟨rfl, rfl⟩ |
      ⟨rfl, rfl⟩ | ⟨rfl, rfl⟩ | ⟨rfl, rfl⟩ := hv <;> exact ⟨by decide, by decide, rfl⟩
  obtain ⟨ha, hw, rfl⟩ := key
  exact step_regRead h ha hw

/-- Settles O8: the three ARG offsets store, and from 0x10 on a write is ignored. -/
theorem registerWriteStoresOrIsIgnored : Obligations.RegisterWriteStoresOrIsIgnored := by
  intro s off v rest h
  refine ⟨?_, ?_, ?_, fun ha hlo hw => ?_⟩
  · rintro rfl
    exact step_regWrite h (by decide) (by decide)
  · rintro rfl
    exact step_regWrite h (by decide) (by decide)
  · rintro rfl
    exact step_regWrite h (by decide) (by decide)
  · rw [step_regWrite h ha hw, writeRegister_readOnly hlo]

/-! ## STATUS and FAULT -/

/-- The fields of STATUS do not overlap (10_state R29). -/
theorem toNat_statusFields : ∀ (e : BitVec 4) (a b c : Bool),
    (e.setWidth 32 ||| (truthWord a <<< 8) ||| (truthWord b <<< 9) ||| (truthWord c <<< 16)).toNat =
      e.toNat + (if a = true then 2 ^ 8 else 0) + (if b = true then 2 ^ 9 else 0) +
        (if c = true then 2 ^ 16 else 0) := by
  decide +kernel

/-- STATUS as a number, field by field (10_state R29). -/
theorem toNat_status (s : State) : s.status.toNat =
    s.errCode.toNat + (if s.ctPresent = true then 2 ^ 8 else 0) +
      (if s.chPresent = true then 2 ^ 9 else 0) + (if s.faultCode ≠ none then 2 ^ 16 else 0) := by
  rw [State.status, toNat_statusFields]
  simp only [State.faulted, Option.isSome_iff_ne_none]

/-- No error kind has a code over 8 (60_exceptions R124). -/
theorem errCode_le (s : State) : s.errCode.toNat ≤ 8 := by
  unfold State.errCode
  cases s.err with
  | none => decide
  | some k => cases k <;> decide

/-- Settles O13: the bits of STATUS above ERR are multiples of 16, and ERR is at most 8. -/
theorem statusIsTheView : Obligations.StatusIsTheView := by
  refine ⟨rfl, fun s rest h => step_regRead h (by decide) (by decide), fun s v rest h => ?_,
    fun s => ⟨?_, ?_⟩⟩
  · rw [step_regWrite h (by decide) (by decide), writeRegister_readOnly (by decide)]
  · rw [toNat_status, State.errCode]
    cases s.err with
    | none => rfl
    | some k => cases k <;> rfl
  · have := errCode_le s
    rw [toNat_status]
    split <;> split <;> split <;> omega

/-- Two bytes side by side in a word, as a number. -/
theorem toNat_byteFields (a b : Byte) :
    (a.setWidth 32 ||| (b.setWidth 32 <<< 8)).toNat = a.toNat + 256 * b.toNat := by
  have ha := a.isLt
  have hb := b.isLt
  rw [BitVec.toNat_or, BitVec.toNat_shiftLeft, BitVec.toNat_setWidth, BitVec.toNat_setWidth,
    Nat.or_comm, Nat.shiftLeft_eq, Nat.mod_eq_of_lt (show b.toNat < 2 ^ 32 by omega),
    Nat.mod_eq_of_lt (show a.toNat < 2 ^ 32 by omega),
    Nat.mod_eq_of_lt (show b.toNat * 2 ^ 8 < 2 ^ 32 by omega), Nat.mul_comm,
    ← Nat.two_pow_add_eq_or_of_lt (by omega), Nat.add_comm]

/-- Settles O14: FAULT_CODE and FAULT_OPCODE are the two low bytes of FAULT. -/
theorem faultIsTheView : Obligations.FaultIsTheView := by
  intro s
  rw [State.faultWord, toNat_byteFields, State.faultCodeByte]
  cases s.faultCode with
  | none => rfl
  | some c => cases c <;> rfl

/-! ## The CRC table ROM -/

/-- Settles O17: the 256 entries of the ROM, each computed by eight rounds. -/
theorem crcTableMatchesListing : Obligations.CrcTableMatchesListing := by
  unfold Obligations.CrcTableMatchesListing
  decide +kernel

end Sys2Proof.Machine
end

section
/-! `mem` as the host and the commands see it (20_memory R45 to R48, R53, R54, R57, R66): what each
host action with a meaning leaves alone, what an access with none does, and which bytes of `mem` a
command reads and writes. -/

namespace Sys2Proof.Machine

open Sys2Proof.Claims

/-! ## A host that keeps its duties -/

/-- The parameters, the actions to come and the mark of a refused access are as before. -/
structure KeepsRun (s t : State) : Prop where
  cfg : t.cfg = s.cfg
  pending : t.pending = s.pending
  refusedMark : t.refusedMark = s.refusedMark

/-- The outcome is a next state of the same run. -/
def Continues (s : State) (o : Host.Outcome State Fault Refusal) : Prop :=
  ∃ t, o = .next t ∧ KeepsRun s t

theorem continues_next {s t : State} (hc : t.cfg = s.cfg) (hp : t.pending = s.pending)
    (hm : t.refusedMark = s.refusedMark) : Continues s (.next t) := ⟨t, rfl, hc, hp, hm⟩

theorem exec_continues (i : Instr) (s : State) : Continues s (exec i s) := by
  obtain ⟨t, ht, -⟩ := exec_cases i s
  obtain ⟨-, -, hcfg, hpending, -, hmark, -⟩ := registerFrame i s t ht
  exact ⟨t, ht, hcfg, hpending, hmark⟩

theorem commandWrite_continues (w : Word) (s : State) : Continues s (s.commandWrite w) := by
  obtain ⟨-, he⟩ | ⟨-, i, -, he⟩ | ⟨-, -, he⟩ := commandWrite_cases w s
  · exact he ▸ continues_next rfl rfl rfl
  · obtain ⟨t, ht, hcfg, hpending, hmark⟩ := exec_continues i { s with cmd := w }
    exact ⟨t, he.trans ht, hcfg, hpending, hmark⟩
  · exact he ▸ continues_next rfl rfl rfl

theorem writeRegister_continues (off : Nat) (v : Word) (s : State) :
    Continues s (s.writeRegister off v) := by
  unfold State.writeRegister
  split
  · exact commandWrite_continues v s
  · exact continues_next rfl rfl rfl
  · exact continues_next rfl rfl rfl
  · exact continues_next rfl rfl rfl
  · exact continues_next rfl rfl rfl

/-- Each duty of 20_memory R66 is the check its action makes. -/
theorem takeAction_continues {a : HostAction} {s : State} (h : a.wf s.cfg = true) :
    Continues s (s.takeAction a) := by
  cases a with
  | regWrite width off v =>
    have hok : registerAccessOk width off = true := h
    rw [State.takeAction, if_pos hok]
    exact writeRegister_continues off v s
  | regRead width off =>
    have hok : registerAccessOk width off = true := h
    rw [State.takeAction, if_pos hok]
    exact continues_next rfl rfl rfl
  | memWrite addr b =>
    rw [State.takeAction, if_pos (of_decide_eq_true h)]
    exact continues_next rfl rfl rfl
  | memRead addr =>
    rw [State.takeAction, if_pos (of_decide_eq_true h)]
    exact continues_next rfl rfl rfl
  | assertReset => exact continues_next rfl rfl rfl

/-- Settles O6: an idle step holds the state, and a well-formed action continues the run. -/
theorem dutifulHostNeverStops : Obligations.DutifulHostNeverStops := by
  intro s hm hwf
  match hp : s.pending with
  | [] => exact ⟨s, step_idle hm hp, hm, hp, rfl, fun _ => rfl⟩
  | a :: rest =>
    obtain ⟨t, ht, hcfg, hpending, hmark⟩ :=
      takeAction_continues (s := { s with pending := rest }) (hwf a (by simp [hp]))
    exact ⟨t, (step_takeAction hm hp).trans ht, hmark.trans hm, hpending, hcfg, nofun⟩

/-! ## Accesses with no meaning -/

/-- A narrow or wide, a misaligned and an out-of-window access have no meaning (20_memory R53). -/
theorem registerAccessOk_eq_false {width : AccessWidth} {off : Nat}
    (h : width ≠ .word ∨ off % 4 ≠ 0 ∨ 0x40 ≤ off) : registerAccessOk width off = false := by
  obtain h | h | h := h
  · simp [registerAccessOk, h]
  · simp [registerAccessOk, h]
  · have hoff : ¬ off ≤ 0x3C := by omega
    simp [registerAccessOk, hoff]

/-- Settles O9: an access with no meaning marks the state, and a marked state takes no step. -/
theorem undefinedAccessIsRefused : Obligations.UndefinedAccessIsRefused := by
  refine ⟨fun s width off v rest ⟨hm, hp⟩ h => ?_, fun s width off rest ⟨hm, hp⟩ h => ?_,
    fun s => step_marked⟩
  · rw [step_takeAction hm hp, State.takeAction, registerAccessOk_eq_false h]
    rfl
  · rw [step_takeAction hm hp, State.takeAction, registerAccessOk_eq_false h]
    rfl

/-! ## Bytes of `mem` -/

/-- Settles O10: below MEM_SIZE the write is `Memory.write`, which sets one byte of a canonical `mem`,
and the read is `Memory.read`; from MEM_SIZE on both stop. -/
theorem hostMemoryBytes : Obligations.HostMemoryBytes := by
  refine ⟨fun s a b rest ⟨hm, hp⟩ hwf ha => ⟨s.mem.write a b, ?_, Memory.read_write_same hwf a b,
      fun x hx => Memory.read_write_other (by omega) s.mem b⟩,
    fun s a rest ⟨hm, hp⟩ ha => ?_, fun s a b rest ⟨hm, hp⟩ ha => ?_,
    fun s a rest ⟨hm, hp⟩ ha => ?_⟩
  · rw [step_takeAction hm hp, State.takeAction, if_pos ha]
  · rw [step_takeAction hm hp, State.takeAction, if_pos ha]
    rfl
  · rw [step_takeAction hm hp, State.takeAction, if_neg (not_lt.2 ha)]
  · rw [step_takeAction hm hp, State.takeAction, if_neg (not_lt.2 ha)]

/-! ## What a command writes to `mem` -/

/-- Settles O53: of the ends of a command only the write of the destination range touches `mem`, and
PL of CH_LEN bytes makes it exactly that range. -/
theorem memoryFrame : Obligations.MemoryFrame := by
  intro i s t x hpl h hx
  cases ends_of_exec h with
  | fault code info => rfl
  | error kind i0 i1 => rfl
  | success v hw =>
    cases hw with
    | none => rfl
    | crcAcc w _ => rfl
    | type w _ _ => rfl
    | chunk ty len data _ _ _ _ => rfl
    | chunkNext ty len a n data _ _ _ _ => rfl
    | bytes n bs hn _ _ hl => exact Memory.read_writeBytes_outside s.mem bs (hl hpl ▸ hx n hn)

/-- The bytes a command with a destination range puts there (42_chunk_type R102, 43_chunk_codec R115,
R116, R119): none comes from `mem`. -/
def dstBytes (s : State) : Instr → List Byte
  | .ctToString => unpack s.ct
  | .chunkDataAsText | .chunkData => s.pl
  | .chunkSerialize => recordBytes s.chLen (unpack s.chType) s.pl
  | _ => []

/-- `dstBytes` fill the destination range when PL is CH_LEN bytes (43_chunk_codec R106). -/
theorem length_dstBytes {i : Instr} {s : State} {n : Nat} (hn : dstLen s i = some n)
    (hpl : s.pl.length = s.chLen.toNat) : (dstBytes s i).length = n := by
  cases i with
  | ctToString => cases hn; rfl
  | chunkDataAsText | chunkData => cases hn; exact hpl
  | chunkSerialize =>
    cases hn
    simp only [dstBytes, recordBytes, List.length_append, length_toBe32, length_unpack]
    omega
  | _ => cases hn

/-- A dispatch that records no fault runs the command's own rule (30_encoding R74). -/
theorem dispatch_eq_of_noFault {i : Instr} {s body : State}
    (h : (dispatch i s body).faultCode = none) : dispatch i s body = body := by
  obtain ⟨-, he⟩ | ⟨code, info, he⟩ := dispatch_cases i s body
  · exact he
  · rw [he] at h
    cases h

/-- A command with a destination range that succeeds has written `dstBytes` there. -/
theorem mem_of_exec_dst {i : Instr} {s t : State} {n : Nat} (hn : dstLen s i = some n)
    (h : exec i s = .next t) (hf : t.faultCode = none) (he : t.err = none) :
    t.mem = s.mem.writeBytes s.dstAddr (dstBytes s i) := by
  cases i with
  | ctToString | chunkSerialize | chunkData =>
    cases h
    rw [dispatch_eq_of_noFault hf]
    rfl
  | chunkDataAsText =>
    cases h
    rw [dispatch_eq_of_noFault hf] at he ⊢
    split at he
    · cases he
    · rename_i hvalid
      rw [if_neg hvalid]
      rfl
  | _ => cases hn

/-! ## What a command reads of `mem` -/

/-- A byte inside a range just written, on a canonical list. -/
theorem read_writeBytes_inside {m : Memory} (h : m.wf) (a : Nat) {k : Nat} {bs : List Byte}
    (hk : k < bs.length) : some ((m.writeBytes a bs).read (a + k)) = bs[k]? := by
  rw [← getElem?_readBytes _ _ hk, Memory.readBytes_writeBytes_same h]

/-- With another `mem` that agrees in the source range a command reads the same. -/
theorem sameReads_mem {i : Instr} {s : State} {m : Memory}
    (h : usesSource i = true → ∀ x, s.arg0.toNat ≤ x → x < s.arg0.toNat + s.arg1.toNat →
      m.read x = s.mem.read x) : SameReads i s { s with mem := m } :=
  ⟨rfl, rfl, rfl, rfl, rfl, rfl, rfl, rfl, rfl, fun _ => rfl, fun _ => rfl, h⟩

/-- Ends alike from states that differ in `mem` alone differ in `mem` alone. -/
theorem EndAlike.eq_but_mem {i : Instr} {s t t' : State} {m : Memory}
    (h : EndAlike i s { s with mem := m } t t') : { t' with mem := t.mem } = t := by
  cases h with
  | fault op code info => rfl
  | error kind i0 i1 => rfl
  | complete r => rfl
  | crcAcc v r _ => rfl
  | type w r => rfl
  | chunk ty len r data => rfl
  | chunkNext ty len a n r data => rfl
  | bytes bs r n _ _ => rfl

/-- Settles O54: the two runs end alike, and what a successful one writes, `dstBytes`, is no byte of
`mem`. -/
theorem readsOnlySourceRange : Obligations.ReadsOnlySourceRange := by
  intro i s t t' m hsrc ht ht'
  obtain ⟨u, u', hu, hu', hends⟩ := alike_exec (sameReads_mem hsrc)
  cases hu.symm.trans ht
  cases hu'.symm.trans ht'
  have heq := hends.eq_but_mem
  refine ⟨heq, fun x n hn hpl hwf hwf' hf he hx hx' => ?_⟩
  have hf' : t'.faultCode = none := (congrArg State.faultCode heq).trans hf
  have he' : t'.err = none := (congrArg State.err heq).trans he
  have hmem : t.mem = s.mem.writeBytes s.dstAddr (dstBytes s i) := mem_of_exec_dst hn ht hf he
  have hmem' : t'.mem = m.writeBytes s.dstAddr (dstBytes s i) :=
    mem_of_exec_dst (s := { s with mem := m }) hn ht' hf' he'
  obtain ⟨k, rfl⟩ := Nat.exists_eq_add_of_le hx
  have hk : k < (dstBytes s i).length := by
    rw [length_dstBytes hn hpl]
    omega
  rw [hmem, hmem']
  exact Option.some.inj
    ((read_writeBytes_inside hwf' _ hk).trans (read_writeBytes_inside hwf _ hk).symm)

end Sys2Proof.Machine
end

section
/-! The command word (30_encoding R68 to R72, R77): the fields of an encoded word, decoder and encoder
as inverses, the words of R72, and the expansions of the pseudo-instructions. -/

namespace Sys2Proof.Machine

open Sys2Proof.Claims

/-! ## The word of a command -/

/-- OPCODE and IMM8 are the two low bytes of a command's word, and RSV = 0 (30_encoding R68). -/
theorem toNat_encode (i : Instr) : (encode i).toNat = i.opcode.toNat + 256 * i.imm8.toNat :=
  toNat_byteFields i.opcode i.imm8

@[simp] theorem opcode_encode (i : Instr) : CommandWord.opcode (encode i) = i.opcode := by
  rw [CommandWord.opcode_eq, toNat_encode]
  have := i.opcode.isLt
  omega

@[simp] theorem imm_encode (i : Instr) : CommandWord.imm (encode i) = i.imm8 := by
  apply BitVec.eq_of_toNat_eq
  rw [CommandWord.toNat_imm, toNat_encode]
  have := i.opcode.isLt
  have := i.imm8.isLt
  omega

@[simp] theorem reserved_encode (i : Instr) : CommandWord.reserved (encode i) = 0 := by
  rw [CommandWord.reserved_eq_zero, toNat_encode]
  have := i.opcode.isLt
  have := i.imm8.isLt
  omega

/-! ## Decoder and encoder -/

/-- The map has every command but CRC_UPDATE_BYTE under its own opcode (30_encoding R71). -/
theorem commandOf_opcode {i : Instr} (h : ∀ b, i ≠ .crcUpdateByte b) :
    i.opcode ≠ 0x02 ∧ i.imm8 = 0 ∧ commandOf i.opcode = some i := by
  cases i with
  | crcUpdateByte b => exact absurd rfl (h b)
  | _ => exact ⟨by decide, rfl, rfl⟩

theorem decode_encode (i : Instr) : decode (encode i) = .ok i := by
  rw [decode_eq_ok, opcode_encode, imm_encode]
  refine ⟨reserved_encode i, ?_⟩
  by_cases h : ∃ b, i = .crcUpdateByte b
  · obtain ⟨b, rfl⟩ := h
    exact .inl ⟨rfl, rfl⟩
  · exact .inr (commandOf_opcode (not_exists.1 h))

/-- The fields of a legal word are those of its command (30_encoding R71). -/
theorem fields_of_decode {w : Word} {i : Instr} (h : decode w = .ok i) :
    CommandWord.opcode w = i.opcode ∧ CommandWord.imm w = i.imm8 ∧ CommandWord.reserved w = 0 := by
  obtain ⟨hr, ⟨ho, rfl⟩ | ⟨-, hi, hc⟩⟩ := decode_eq_ok.1 h
  · exact ⟨ho, rfl, hr⟩
  · obtain ⟨ho, hi'⟩ := commandOf_eq_some hc
    exact ⟨ho.symm, hi.trans hi'.symm, hr⟩

theorem encode_of_decode {w : Word} {i : Instr} (h : decode w = .ok i) : encode i = w := by
  obtain ⟨ho, hi, hr⟩ := fields_of_decode h
  rw [CommandWord.eq_of_reserved hr, ho, hi]
  rfl

/-! ## Legal and illegal words -/

/-- The decoder accepts a word by its fields: RSV = 0, and an opcode of the map with IMM8 = 0 unless it
is CRC_UPDATE_BYTE's (30_encoding R71). -/
theorem exists_decode_iff {w : Word} : (∃ i, decode w = .ok i) ↔
    CommandWord.reserved w = 0 ∧ (CommandWord.opcode w = 0x02 ∨
      (CommandWord.opcode w ≠ 0x02 ∧ CommandWord.imm w = 0 ∧
        (commandOf (CommandWord.opcode w)).isSome = true)) := by
  constructor
  · rintro ⟨i, h⟩
    obtain ⟨hr, ⟨ho, -⟩ | ⟨ho, hi, hc⟩⟩ := decode_eq_ok.1 h
    · exact ⟨hr, .inl ho⟩
    · exact ⟨hr, .inr ⟨ho, hi, by simp [hc]⟩⟩
  · rintro ⟨hr, ho | ⟨ho, hi, hc⟩⟩
    · exact ⟨_, decode_eq_ok.2 ⟨hr, .inl ⟨ho, rfl⟩⟩⟩
    · obtain ⟨i, hc⟩ := Option.isSome_iff_exists.1 hc
      exact ⟨i, decode_eq_ok.2 ⟨hr, .inr ⟨ho, hi, hc⟩⟩⟩

/-- Every word is a command or meets one of the three conditions of 30_encoding R72, never both. -/
theorem exists_decode_iff_not_illegalBits {w : Word} :
    (∃ i, decode w = .ok i) ↔ ¬ IllegalBits w := by
  rw [exists_decode_iff, CommandWord.reserved_eq_zero, CommandWord.imm_eq_zero]
  have hop : CommandWord.opcode w = 0x02 ↔ w.toNat % 256 = 2 := CommandWord.opcode_eq
  by_cases h : CommandWord.opcode w = 0x02
  · have h2 := hop.1 h
    simp only [h, true_or, and_true, IllegalBits]
    omega
  · have h2 := mt hop.2 h
    rw [commandOf_isSome _ h, CommandWord.toNat_opcode]
    simp only [h, false_or, not_false_eq_true, true_and, ne_eq, IllegalBits]
    omega

/-- The well-formedness check of a command word fails exactly on the words of 30_encoding R72. -/
theorem commandWord_wf_iff {w : Word} : CommandWord.wf w = true ↔ ¬ IllegalBits w := by
  simp only [CommandWord.wf, CommandWord.opcodeOk, CommandWord.reservedOk, CommandWord.immediateOk,
    Bool.and_eq_true, Bool.or_eq_true, decide_eq_true_eq, IllegalBits]
  omega

/-- Settles O3: a word is determined by its three fields, and an encoded word decodes, so it meets none
of the conditions of R72. -/
theorem encodeDecodeAgree : Obligations.EncodeDecodeAgree := by
  refine ⟨decode_encode, fun w i => encode_of_decode, fun i => ?_⟩
  rw [commandWord_wf_iff, ← exists_decode_iff_not_illegalBits]
  exact ⟨i, decode_encode i⟩

/-- Settles O2: the words of R72 are those the decoder refuses, and a refused word is `Illegal`. -/
theorem illegalWordsFault : Obligations.IllegalWordsFault := by
  intro w
  refine ⟨fun h => illegal_of_error (decode_isError.2 fun hd => ?_),
    exists_decode_iff_not_illegalBits.2⟩
  exact exists_decode_iff_not_illegalBits.1 hd h

/-- Settles O1: each row's word is the word of its command, and a legal word has the fields of its
command, of which only CRC_UPDATE_BYTE has an IMM8. -/
theorem opcodeMapDecodes : Obligations.OpcodeMapDecodes := by
  refine ⟨decode_encode .crcInit, fun b => decode_encode (.crcUpdateByte b),
    decode_encode .crcUpdate, decode_encode .crcGet, decode_encode .ctNew,
    decode_encode .ctFromString, decode_encode .ctBytes, decode_encode .ctIsCritical,
    decode_encode .ctIsPublic, decode_encode .ctIsReservedBitValid, decode_encode .ctIsSafeToCopy,
    decode_encode .ctIsValid, decode_encode .ctToString, decode_encode .ctEq,
    decode_encode .chunkNew, decode_encode .chunkLength, decode_encode .chunkCrc,
    decode_encode .chunkDataAsText, decode_encode .chunkSerialize, decode_encode .chunkParse,
    decode_encode .chunkParseNext, decode_encode .chunkData, decode_encode .chunkType,
    fun w i h => ?_⟩
  have hlegal := exists_decode_iff_not_illegalBits.1 ⟨i, h⟩
  simp only [IllegalBits] at hlegal
  omega

/-! ## Pseudo-instructions -/

/-- Settles O16: the operand writes are those of `expand`, and each last write carries the word of its
row. -/
theorem pseudoInstructionsExpand : Obligations.PseudoInstructionsExpand := fun _ _ _ _ =>
  ⟨rfl, rfl, rfl, rfl, rfl, rfl, rfl, rfl, rfl, rfl, rfl, rfl⟩

end Sys2Proof.Machine
end

section
/-! The dispatch of a CMD write (30_encoding R74), stage by stage: the four sets, the command's own rule
as the body of `dispatch`, and the step that takes the write. -/

namespace Sys2Proof.Machine

open Sys2Proof.Claims

/-! ## The four sets -/

theorem mem_needsCt {i : Instr} : i ∈ NeedsCt ↔ needsType i = true := by
  cases i <;> simp [needsType]

theorem mem_needsCh {i : Instr} : i ∈ NeedsCh ↔ needsChunk i = true := by
  cases i <;> simp [needsChunk]

theorem mem_srcOps {i : Instr} : i ∈ SrcOps ↔ usesSource i = true := by
  cases i <;> simp [usesSource]

theorem mem_dstOps {i : Instr} {s : State} {n : Nat} :
    (i, n) ∈ DstOps s ↔ dstLen s i = some n := by
  cases i <;> simp [dstLen, eq_comm]

/-- No command needs both CT and a chunk (30_encoding R74). -/
theorem needsChunk_eq_false {i : Instr} (h : needsType i = true) : needsChunk i = false := by
  cases i <;> simp_all [needsType, needsChunk]

theorem needsType_eq_false {i : Instr} (h : needsChunk i = true) : needsType i = false :=
  Bool.eq_false_iff.2 fun ht => by simp [needsChunk_eq_false ht] at h

/-- No command with a source range needs a chunk (30_encoding R74). -/
theorem needsChunk_eq_false_of_source {i : Instr} (h : usesSource i = true) :
    needsChunk i = false := by
  cases i <;> simp_all [usesSource, needsChunk]

/-- No command has both a source and a destination range (30_encoding R74). -/
theorem usesSource_eq_false {i : Instr} {s : State} {n : Nat} (h : dstLen s i = some n) :
    usesSource i = false := by
  cases i <;> simp_all [usesSource, dstLen]

/-! ## The command's own rule -/

/-- The state `body` records no fault that `s` does not, unless it is CAPACITY. -/
def AddsOnlyCapacity (s body : State) : Prop :=
  body.faultCode = s.faultCode ∨ body.faultCode = some .capacity

theorem addsOnlyCapacity_constructType (b : List Byte) (packed : Word) (s : State) :
    AddsOnlyCapacity s (constructType b packed s) := by
  obtain ⟨-, he⟩ | ⟨i0, i1, he⟩ := constructType_cases b packed s
  · exact .inl (by simp [he])
  · exact .inl (by simp [he])

/-- The one fault of the parse procedure is CAPACITY (43_chunk_codec R110). -/
theorem parseRecord_fault {m : Memory} {cap a n : Nat} {streaming : Bool} {code : FaultCode}
    {info : Word} (h : parseRecord m cap a n streaming = .fault code info) : code = .capacity := by
  unfold parseRecord at h
  split at h
  · cases h
  · dsimp only at h
    split at h
    · cases h
    · split_ifs at h
      injection h with hcode
      exact hcode.symm

/-- Every command is its dispatch around its own rule, which can raise no fault but CAPACITY
(30_encoding R74, stage 4). -/
theorem exec_eq_dispatch (i : Instr) (s : State) :
    ∃ body, exec i s = .next (dispatch i s body) ∧ AddsOnlyCapacity s body := by
  cases i with
  | ctNew => exact ⟨_, rfl, addsOnlyCapacity_constructType ..⟩
  | ctFromString =>
    refine ⟨_, rfl, ?_⟩
    split
    · exact addsOnlyCapacity_constructType ..
    · exact .inl rfl
  | chunkNew =>
    refine ⟨_, rfl, ?_⟩
    split
    · exact .inr rfl
    · exact .inl rfl
  | chunkDataAsText =>
    refine ⟨_, rfl, ?_⟩
    split
    · exact .inl rfl
    · exact .inl rfl
  | chunkParse =>
    refine ⟨_, rfl, ?_⟩
    split
    · exact .inl rfl
    · rename_i code info hp
      exact .inr (congrArg some (parseRecord_fault hp))
    · split
      · exact .inl rfl
      · exact .inl rfl
  | chunkParseNext =>
    refine ⟨_, rfl, ?_⟩
    split
    · exact .inl rfl
    · rename_i code info hp
      exact .inr (congrArg some (parseRecord_fault hp))
    · exact .inl rfl
  | _ => exact ⟨_, rfl, .inl rfl⟩

/-! ## The stages, in order -/

theorem exec_noType {i : Instr} {s : State} (hi : i ∈ NeedsCt) (h : s.ctPresent = false) :
    exec i s = .next (faulted i.opcode .noType 0 s) := by
  obtain ⟨body, hexec, -⟩ := exec_eq_dispatch i s
  rw [hexec, dispatch_noType (mem_needsCt.1 hi) h]
  rfl

theorem exec_noChunk {i : Instr} {s : State} (hi : i ∈ NeedsCh) (h : s.chPresent = false) :
    exec i s = .next (faulted i.opcode .noChunk 0 s) := by
  have hc := mem_needsCh.1 hi
  obtain ⟨body, hexec, -⟩ := exec_eq_dispatch i s
  rw [hexec, dispatch_noChunk (needsType_eq_false hc) hc h]
  rfl

theorem exec_sourceRange {i : Instr} {s : State} (hp : Present s i) (hi : i ∈ SrcOps)
    (h : ¬ SourceInMem s) : exec i s = .next (faulted i.opcode .memRange s.arg0 s) := by
  have hs := mem_srcOps.1 hi
  obtain ⟨body, hexec, -⟩ := exec_eq_dispatch i s
  rw [hexec, dispatch_source (fun ht => hp.1 (mem_needsCt.2 ht))
    (needsChunk_eq_false_of_source hs) hs h]
  rfl

theorem exec_destRange {i : Instr} {s : State} {n : Nat} (hp : Present s i)
    (hi : (i, n) ∈ DstOps s) (h : ¬ DestInMem s n) :
    exec i s = .next (faulted i.opcode .memRange s.arg2 s) := by
  have hn := mem_dstOps.1 hi
  obtain ⟨body, hexec, -⟩ := exec_eq_dispatch i s
  rw [hexec, dispatch_dest (fun ht => hp.1 (mem_needsCt.2 ht)) (fun hc => hp.2 (mem_needsCh.2 hc))
    (usesSource_eq_false hn) hn h]
  rfl

/-- With every check passed the command's own rule ends with no fault or with CAPACITY. -/
theorem exec_ready {i : Instr} {s : State} (hf : s.faultCode = none) (hp : Present s i)
    (hs : i ∈ SrcOps → SourceInMem s) (hd : ∀ n, (i, n) ∈ DstOps s → DestInMem s n) :
    ∃ t, exec i s = .next t ∧ t.cmd = s.cmd ∧
      (t.faultCode = none ∨ t.faultCode = some .capacity) := by
  have hready : Ready i s :=
    ⟨fun h => hp.1 (mem_needsCt.2 h), fun h => hp.2 (mem_needsCh.2 h),
      fun h => hs (mem_srcOps.2 h), fun n h => hd n (mem_dstOps.2 h)⟩
  obtain ⟨body, hexec, hbody⟩ := exec_eq_dispatch i s
  rw [dispatch_ready hready] at hexec
  obtain ⟨hcmd, -⟩ := registerFrame i s body hexec
  exact ⟨body, hexec, hcmd, hbody.imp_left fun h => h.trans hf⟩

/-! ## The step at a CMD write -/

/-- A recorded fault makes the engine ignore the write (60_exceptions R130). -/
theorem step_command_ignored {s : State} {w : Word} {rest : List HostAction}
    (h : NextAction s (.regWrite .word 0x00 w) rest) (hf : s.faultCode ≠ none) :
    step s = .next { s with pending := rest } := by
  rw [step_regWrite h (by decide) (by decide)]
  exact if_pos (Option.isSome_iff_ne_none.2 hf)

/-- A legal word runs its command with CMD = `w` (30_encoding R74). -/
theorem step_command_runs {s : State} {w : Word} {rest : List HostAction} {i : Instr}
    (h : NextAction s (.regWrite .word 0x00 w) rest) (hf : s.faultCode = none)
    (hd : decode w = .ok i) : step s = exec i { s with pending := rest, cmd := w } := by
  rw [step_regWrite h (by decide) (by decide)]
  simp only [State.writeRegister, State.commandWrite, State.faulted, hf, hd, Option.isSome_none,
    Bool.false_eq_true, if_false]

/-- A table word of 32 bits is a command word (30_encoding R70). -/
theorem decode_of_decodeTableWord {w : Nat} {i : Instr} (h : decodeTableWord 32 w = some i) :
    decode (BitVec.ofNat 32 (w % 2 ^ 32)) = .ok i := by
  unfold decodeTableWord at h
  split at h
  · rename_i hd
    exact hd.trans (congrArg Except.ok (Option.some.inj h))
  · cases h

/-- Settles O4: both parts are `step_command_runs`; `withFetchWord` puts the write of the word in
front of the host's list. -/
theorem stepRunsDecodedCommand : Obligations.StepRunsDecodedCommand := by
  refine ⟨fun s w rest i => step_command_runs, fun s w i hm hf h => ?_⟩
  have hw : BitVec.ofNat 32 (w % 2 ^ 32) = BitVec.ofNat 32 w :=
    BitVec.eq_of_toNat_eq (Nat.mod_mod ..)
  have hd := decode_of_decodeTableWord h
  rw [← hw]
  exact step_command_runs (s := s.withFetchWord 32 w) ⟨hm, rfl⟩ hf hd

/-- FAULT_OPCODE of a command is the low byte of its word (60_exceptions R129). -/
theorem opcode_eq_of_decode {w : Word} {i : Instr} (h : decode w = .ok i) :
    i.opcode = BitVec.ofNat 8 w.toNat := by
  obtain ⟨ho, -, -⟩ := fields_of_decode h
  apply BitVec.eq_of_toNat_eq
  rw [← ho, CommandWord.toNat_opcode, BitVec.toNat_ofNat]

/-- Settles O15: the step runs `exec`, whose stages are the five lemmas above. -/
theorem dispatchOrder : Obligations.DispatchOrder := by
  refine ⟨fun i ⟨ht, hc⟩ => ?_, fun s i n ⟨hs, hd⟩ => ?_, fun s w rest h =>
    ⟨step_command_ignored h, fun hf he => (illegal_of_error he).2 s rest h hf,
      fun i hf hd => ?_⟩⟩
  · exact absurd (mem_needsCh.1 hc) (by simp [needsChunk_eq_false (mem_needsCt.1 ht)])
  · exact absurd (mem_srcOps.1 hs) (by simp [usesSource_eq_false (mem_dstOps.1 hd)])
  · rw [step_command_runs h hf hd, ← opcode_eq_of_decode hd]
    let t : State := { s with pending := rest, cmd := w }
    exact ⟨exec_noType (s := t), exec_noChunk (s := t), exec_sourceRange (s := t),
      fun n => exec_destRange (s := t), exec_ready (s := t) hf⟩

end Sys2Proof.Machine
end

section
/-! The CRC Engine (41_crc R78 to R88): a step as eight rounds, the accumulator over consecutive pieces
of a range, and the four commands. -/

namespace Sys2Proof.Machine

open Sys2Proof.Claims

/-! ## The step -/

/-- An accumulator is its part above the low byte and its low byte. -/
theorem eq_high_xor_low (acc : Word) :
    acc = (acc >>> 8 <<< 8) ^^^ (acc.setWidth 8).setWidth 32 := by
  apply BitVec.eq_of_getLsbD_eq
  intro i hi
  simp only [BitVec.getLsbD_xor, BitVec.getLsbD_shiftLeft, BitVec.getLsbD_ushiftRight,
    BitVec.getLsbD_setWidth]
  rcases lt_or_ge i 8 with h | h
  · simp [h, hi]
  · simp [show ¬ i < 8 by omega, hi, show 8 + (i - 8) = i by omega]

/-- Eight rounds shift a value with a zero low byte down by one byte. -/
theorem crcRounds_high (acc : Word) : crcRounds 8 (acc >>> 8 <<< 8) = acc >>> 8 := by
  rw [crcRounds_of_low_zero 8 fun i hi => by simp [hi]]
  apply BitVec.eq_of_getLsbD_eq
  intro i hi
  simpa using BitVec.lt_of_getLsbD

/-- Settles O18: rounds are linear, so the eight rounds split into those of the low byte, a table entry,
and those of the part above it, a shift. -/
theorem bitwiseStepMatchesTable : Obligations.BitwiseStepMatchesTable := by
  intro acc b
  have hsplit : acc ^^^ b.setWidth 32 =
      (acc.setWidth 8 ^^^ b).setWidth 32 ^^^ (acc >>> 8 <<< 8) := by
    rw [BitVec.setWidth_xor]
    conv_lhs => rw [eq_high_xor_low acc]
    ac_rfl
  calc crcStepBitwise acc b
    _ = crcRounds 8 ((acc.setWidth 8 ^^^ b).setWidth 32) ^^^ crcRounds 8 (acc >>> 8 <<< 8) := by
      rw [crcStepBitwise, hsplit, crcRounds_xor]
    _ = crcTable (acc.setWidth 8 ^^^ b) ^^^ (acc >>> 8) := by
      rw [crcRounds_high, crcTable, tableEntry]
    _ = crcStep acc b := (crcStep_eq acc b).symm

/-! ## What the four commands answer -/

/-- A command that needs neither CT, a chunk nor a range always reaches its own rule
(30_encoding R74). -/
theorem ready_of_noNeeds {i : Instr} {s : State} (ht : needsType i = false)
    (hc : needsChunk i = false) (hs : usesSource i = false) (hd : dstLen s i = none) :
    Ready i s :=
  ⟨by simp [ht], by simp [hc], by simp [hs], by simp [hd]⟩

theorem exec_crcInit (s : State) :
    exec .crcInit s = .next ((s.putCrcAcc 0xFFFFFFFF).complete 0) :=
  congrArg Host.Outcome.next (dispatch_ready (ready_of_noNeeds rfl rfl rfl rfl) _)

theorem exec_crcUpdateByte (b : Byte) (s : State) :
    exec (.crcUpdateByte b) s = .next ((s.putCrcAcc (crcStep s.crcAcc b)).complete 0) :=
  congrArg Host.Outcome.next (dispatch_ready (ready_of_noNeeds rfl rfl rfl rfl) _)

theorem exec_crcUpdate {s : State} (h : SourceInMem s) :
    exec .crcUpdate s = .next ((s.putCrcAcc (crcFold s.crcAcc s.srcBytes)).complete 0) :=
  congrArg Host.Outcome.next (dispatch_ready
    ⟨by simp [needsType], by simp [needsChunk], fun _ => h, by simp [dstLen]⟩ _)

theorem exec_crcGet (s : State) : exec .crcGet s = .next (s.complete (~~~ s.crcAcc)) :=
  congrArg Host.Outcome.next (dispatch_ready (ready_of_noNeeds rfl rfl rfl rfl) _)

/-- Settles O20: row 0x01 of the map, and CRC_INIT needs nothing. -/
theorem crcInitCommand : Obligations.CrcInitCommand :=
  ⟨onlyWordOf (by decide) rfl, exec_crcInit⟩

/-- Of the words with opcode 0x02 those with RSV = 0 are CRC_UPDATE_BYTE, with the byte in bits 15:8
(30_encoding R69, R71, R72). -/
theorem decode_crcUpdateByte {w : Word} (hop : w.toNat % 256 = 0x02) :
    (w.toNat / 2 ^ 16 = 0 → decode w = .ok (.crcUpdateByte (BitVec.ofNat 8 (w.toNat / 2 ^ 8)))) ∧
    (w.toNat / 2 ^ 16 ≠ 0 → Illegal w) := by
  constructor
  · intro hr
    have himm : BitVec.ofNat 8 (w.toNat / 2 ^ 8) = CommandWord.imm w :=
      BitVec.eq_of_toNat_eq (by rw [BitVec.toNat_ofNat, CommandWord.toNat_imm])
    exact decode_eq_ok.2 ⟨CommandWord.reserved_eq_zero.2 hr,
      .inl ⟨CommandWord.opcode_eq.2 hop, by rw [himm]⟩⟩
  · exact fun hr => (illegalWordsFault w).1 (.inr (.inl hr))

/-- Settles O21: the words of `decode_crcUpdateByte`, and the table index of `crcStep_eq` as a
number. -/
theorem crcUpdateByteCommand : Obligations.CrcUpdateByteCommand := by
  refine ⟨fun w => decode_crcUpdateByte, fun s b => ?_⟩
  have hlow : BitVec.ofNat 8 (s.crcAcc.toNat % 256) = s.crcAcc.setWidth 8 :=
    BitVec.eq_of_toNat_eq (by simp)
  rw [exec_crcUpdateByte, crcStep_eq, hlow]
  rfl

/-- Settles O22: row 0x03 of the map, and the source range is the one need of CRC_UPDATE. -/
theorem crcUpdateCommand : Obligations.CrcUpdateCommand := by
  refine ⟨onlyWordOf (by decide) rfl, fun s h => ?_, fun s => ?_⟩
  · rw [exec_crcUpdate h, crcFold_eq_foldl, bytesAt_eq]
    rfl
  · exact exec_sourceRange ⟨by simp, by simp⟩ (by simp)

/-- Settles O23: row 0x04 of the map, and the complement is the exclusive or with all ones. -/
theorem crcGetCommand : Obligations.CrcGetCommand := by
  refine ⟨onlyWordOf (by decide) rfl, fun s => ?_⟩
  rw [exec_crcGet, show ~~~ s.crcAcc = 0xFFFFFFFF ^^^ s.crcAcc from
    (BitVec.allOnes_xor (x := s.crcAcc)).symm]
  rfl

/-! ## Consecutive pieces -/

/-- A source range of `n + k` bytes in `mem` is its first `n` bytes and, from ARG0 + `n` on, `k` more;
an address of `mem` fits a register (00_scope R10), so the sum does not wrap. -/
theorem srcBytes_split {s : State} {n k : Word} (hcfg : s.cfg.wf = true)
    (hlen : s.arg1.toNat = n.toNat + k.toNat) (h : SourceInMem s) :
    (s.arg0 + n).toNat = s.arg0.toNat + n.toNat ∧
    s.srcBytes = s.mem.readBytes s.arg0.toNat n.toNat ++
      s.mem.readBytes (s.arg0 + n).toNat k.toNat := by
  have hmem : s.cfg.memSize ≤ 2 ^ 32 - 1 := by
    simp only [Config.wf, Config.memSizeOk, Bool.and_eq_true, decide_eq_true_eq] at hcfg
    exact hcfg.1.2
  have haddr : (s.arg0 + n).toNat = s.arg0.toNat + n.toNat := by
    rw [BitVec.toNat_add]
    simp only [SourceInMem] at h
    omega
  refine ⟨haddr, ?_⟩
  rw [haddr, ← Memory.readBytes_add, ← hlen]
  rfl

/-- Settles O19: both pieces lie in `mem`, and the fold over a concatenation is the fold over the first
piece carried on over the second; a range of one byte is that byte. -/
theorem crcUpdateIsIncremental : Obligations.CrcUpdateIsIncremental := by
  refine ⟨fun s t u v n k hcfg hlen h ht hu hv => ?_, fun s t u hone h ht hu => ?_⟩
  · obtain ⟨haddr, hbytes⟩ := srcBytes_split hcfg hlen h
    simp only [SourceInMem] at h
    have hfirst : SourceInMem { s with arg1 := n } := by
      simp only [SourceInMem]
      omega
    rw [exec_crcUpdate h] at ht
    rw [exec_crcUpdate hfirst] at hu
    cases ht
    cases hu
    have hsecond : (s.arg0 + n).toNat + k.toNat ≤ s.cfg.memSize := by omega
    rw [exec_crcUpdate hsecond] at hv
    cases hv
    refine ⟨?_, rfl, rfl⟩
    simp only [State.complete_crcAcc, State.putCrcAcc_crcAcc, hbytes, crcFold_append]
    rfl
  · have hbytes : s.srcBytes = [s.mem.read s.arg0.toNat] := by
      rw [State.srcBytes, State.srcLen, hone]
      rfl
    rw [exec_crcUpdate h, hbytes] at ht
    exact Host.Outcome.next.inj ((hu.symm.trans (exec_crcUpdateByte _ s)).trans ht)

end Sys2Proof.Machine
end

section
/-! The Chunk Type unit (42_chunk_type R89 to R103): its predicates as facts about the bytes of a
packed word and about four bits of it, the load of a validated type, and the ten commands. -/

namespace Sys2Proof.Machine

open Sys2Proof.Claims

/-! ## Bytes and properties of a packed type -/

/-- Packed words are equal exactly when their four bytes are (42_chunk_type R93). -/
theorem eq_iff_byteAt {v w : Word} : v = w ↔ ∀ k, k < 4 → byteAt v k = byteAt w k := by
  refine ⟨fun h k _ => h ▸ rfl, fun h => BitVec.eq_of_toNat_eq ?_⟩
  have h0 := h 0 (by decide)
  have h1 := h 1 (by decide)
  have h2 := h 2 (by decide)
  have h3 := h 3 (by decide)
  simp only [byteAt] at h0 h1 h2 h3
  omega

theorem lettersOnly_iff {w : Word} :
    LettersOnly w ↔ ∀ k, k < 4 → isLetter (typeByte w k) = true := by
  refine ⟨fun h k hk => h _ (List.mem_of_getElem? (getElem?_unpack w hk)), fun h b hb => ?_⟩
  obtain ⟨k, hk, rfl⟩ := List.mem_iff_getElem.1 hb
  have hbyte := getElem?_unpack w hk
  rw [List.getElem?_eq_getElem hk, Option.some.injEq] at hbyte
  exact hbyte ▸ h k hk

/-- A property that is true for uppercase, in the numbers of a claim (42_chunk_type R91). -/
theorem truthWord_isUpper (w : Word) {k : Nat} (hk : k < 4) :
    truthWord (isUpper (typeByte w k)) = if Capital (byteAt w k) then 1 else 0 := by
  simp only [truthWord, byteAt_eq w hk, capital_iff]

/-- The property that is true for lowercase, in the numbers of a claim (42_chunk_type R91). -/
theorem truthWord_isLower (w : Word) {k : Nat} (hk : k < 4) :
    truthWord (isLower (typeByte w k)) = if Small (byteAt w k) then 1 else 0 := by
  simp only [truthWord, byteAt_eq w hk, Claims.small_iff]

/-- Bit 5 of a letter is its case (42_chunk_type R92). -/
theorem case_of_isLetter {b : Byte} (h : isLetter b = true) :
    isLower b = b.getLsbD 5 ∧ isUpper b = !b.getLsbD 5 := by
  have hbit : b.getLsbD 5 = decide (b.toNat / 2 ^ 5 % 2 = 1) := Nat.testBit_eq_decide_div_mod_eq
  rw [isLetter_iff] at h
  rw [hbit]
  constructor
  · rw [Bool.eq_iff_iff, isLower_iff, decide_eq_true_iff]
    omega
  · rw [Bool.eq_iff_iff, isUpper_iff, Bool.not_eq_true', decide_eq_false_iff_not]
    omega

/-- Byte 0 is in bits 31:24 of a packed word, byte 3 in bits 7:0 (10_state R34). -/
theorem getLsbD_typeByte (w : Word) {k i : Nat} (hk : k < 4) (hi : i < 8) :
    (typeByte w k).getLsbD i = w.getLsbD (8 * (3 - k) + i) := by
  match k, hk with
  | 0, _ | 1, _ | 2, _ | 3, _ => simp [typeByte, unpack, toBe32, hi]

/-! ## The load of a validated type -/

theorem constructType_letters {l : List Byte} (h : ∀ b ∈ l, isLetter b = true) (v : Word)
    (s : State) : constructType l v s = (s.putType v).complete v := by
  rw [constructType, validate_eq_none.2 h]

/-- Of four bytes `f 0` to `f 3`, the first that is no letter is reported (42_chunk_type R90). -/
theorem constructType_nonLetter {l : List Byte} {f : Nat → Byte} {k : Nat}
    (hl : ∀ j, j < 4 → l[j]? = some (f j)) (hk : k < 4) (hj : ∀ j, j < k → Letter (f j).toNat)
    (hb : ¬ Letter (f k).toNat) (v : Word) (s : State) :
    constructType l v s = s.raiseError .invalidCharacter (BitVec.ofNat 32 k)
      (BitVec.ofNat 32 (f k).toNat) := by
  have hval : validate l = some (k, f k) := by
    refine validate_eq_some (hl k hk) (mt letter_iff.2 hb) fun j hjk c hc => ?_
    rw [hl j (by omega), Option.some.injEq] at hc
    exact hc ▸ letter_iff.1 (hj j hjk)
  rw [constructType, hval, BitVec.ofNat_toNat]

/-! ## What the ten commands answer -/

theorem exec_ctNew (s : State) : exec .ctNew s = .next (constructType (unpack s.arg0) s.arg0 s) :=
  congrArg Host.Outcome.next (dispatch_ready (ready_of_noNeeds rfl rfl rfl rfl) _)

/-- CT_FROM_STRING with its source range in `mem` reaches its own rule (30_encoding R74). -/
theorem ready_ctFromString {s : State} (h : SourceInMem s) : Ready .ctFromString s :=
  ⟨by simp [needsType], by simp [needsChunk], fun _ => h, by simp [dstLen]⟩

theorem exec_ctFromString_four {s : State} (h : SourceInMem s) (h4 : s.arg1 = 4) :
    exec .ctFromString s = .next (constructType (s.mem.readBytes s.arg0.toNat 4)
      (wordAt s.mem s.arg0.toNat) s) := by
  have hlen : s.srcLen = 4 := congrArg BitVec.toNat h4
  rw [exec, execCtFromString, dispatch_ready (ready_ctFromString h), if_pos hlen, wordAt_eq]
  rfl

theorem exec_ctFromString_wrongLength {s : State} (h : SourceInMem s) (h4 : s.arg1 ≠ 4) :
    exec .ctFromString s = .next (s.raiseError .wrongLength 4 s.arg1) := by
  have hlen : s.srcLen ≠ 4 := fun hl => h4 (BitVec.eq_of_toNat_eq hl)
  rw [exec, execCtFromString, dispatch_ready (ready_ctFromString h), if_neg hlen]

/-- A command that needs CT but neither a chunk nor a range reaches its own rule when CT is present
(30_encoding R74). -/
theorem ready_of_type {i : Instr} {s : State} (h : s.ctPresent = true) (ht : needsType i = true)
    (hs : usesSource i = false) (hd : dstLen s i = none) : Ready i s :=
  ⟨fun _ => h, by simp [needsChunk_eq_false ht], by simp [hs], by simp [hd]⟩

section Present

variable {s : State} (h : s.ctPresent = true)
include h

theorem exec_ctBytes : exec .ctBytes s = .next (s.complete s.ct) :=
  congrArg Host.Outcome.next (dispatch_ready (ready_of_type h rfl rfl rfl) _)

theorem exec_ctIsCritical :
    exec .ctIsCritical s = .next (s.complete (truthWord (isUpper (typeByte s.ct 0)))) :=
  congrArg Host.Outcome.next (dispatch_ready (ready_of_type h rfl rfl rfl) _)

theorem exec_ctIsPublic :
    exec .ctIsPublic s = .next (s.complete (truthWord (isUpper (typeByte s.ct 1)))) :=
  congrArg Host.Outcome.next (dispatch_ready (ready_of_type h rfl rfl rfl) _)

theorem exec_ctIsReservedBitValid :
    exec .ctIsReservedBitValid s = .next (s.complete (truthWord (isUpper (typeByte s.ct 2)))) :=
  congrArg Host.Outcome.next (dispatch_ready (ready_of_type h rfl rfl rfl) _)

theorem exec_ctIsSafeToCopy :
    exec .ctIsSafeToCopy s = .next (s.complete (truthWord (isLower (typeByte s.ct 3)))) :=
  congrArg Host.Outcome.next (dispatch_ready (ready_of_type h rfl rfl rfl) _)

theorem exec_ctIsValid :
    exec .ctIsValid s = .next (s.complete (truthWord (isUpper (typeByte s.ct 2)))) :=
  congrArg Host.Outcome.next (dispatch_ready (ready_of_type h rfl rfl rfl) _)

theorem exec_ctToString (hd : DestInMem s 4) :
    exec .ctToString s = .next ((s.putBytes s.arg2.toNat (unpack s.ct)).complete 4) :=
  congrArg Host.Outcome.next (dispatch_ready
    ⟨fun _ => h, by simp [needsChunk], by simp [usesSource], fun n hn => by cases hn; exact hd⟩ _)

theorem exec_ctEq :
    exec .ctEq s = .next (s.complete (truthWord (decide (s.ct = s.arg0)))) :=
  congrArg Host.Outcome.next (dispatch_ready (ready_of_type h rfl rfl rfl) _)

end Present

/-! ## The properties as bits of CT -/

/-- With letters in CT, byte `k` is uppercase exactly when its case bit is 0 (42_chunk_type R92). -/
theorem truthWord_isUpper_bit {w : Word} {k : Nat} (hw : LettersOnly w) (hk : k < 4) :
    truthWord (isUpper (typeByte w k)) = if w.getLsbD (8 * (3 - k) + 5) then 0 else 1 := by
  rw [(case_of_isLetter (lettersOnly_iff.1 hw k hk)).2, getLsbD_typeByte w hk (by decide)]
  cases w.getLsbD (8 * (3 - k) + 5) <;> rfl

/-- With letters in CT, byte `k` is lowercase exactly when its case bit is 1 (42_chunk_type R92). -/
theorem truthWord_isLower_bit {w : Word} {k : Nat} (hw : LettersOnly w) (hk : k < 4) :
    truthWord (isLower (typeByte w k)) = if w.getLsbD (8 * (3 - k) + 5) then 1 else 0 := by
  rw [(case_of_isLetter (lettersOnly_iff.1 hw k hk)).1, getLsbD_typeByte w hk (by decide), truthWord]

/-- Settles O34: each property is the case of one byte, and the case of a letter is its bit 5. -/
theorem propertiesAreCaseBits : Obligations.PropertiesAreCaseBits := by
  intro s hinv h
  have hw : LettersOnly s.ct := hinv h
  refine ⟨?_, ?_, ?_, ?_⟩
  · rw [exec_ctIsCritical h, truthWord_isUpper_bit hw (by decide)]
    rfl
  · rw [exec_ctIsPublic h, truthWord_isUpper_bit hw (by decide)]
    rfl
  · rw [exec_ctIsReservedBitValid h, truthWord_isUpper_bit hw (by decide)]
    rfl
  · rw [exec_ctIsSafeToCopy h, truthWord_isLower_bit hw (by decide)]
    rfl

/-! ## The constructors -/

/-- Settles O24: row 0x10 of the map; CT_NEW needs nothing and loads the bytes of ARG0, each given by
`byteAt`. -/
theorem ctNewCommand : Obligations.CtNewCommand := by
  refine ⟨onlyWordOf (by decide) rfl, fun s h => ?_, fun s k hk hj hb => ?_⟩
  · have hw : LettersOnly s.arg0 :=
      lettersOnly_iff.2 fun k hk => letter_iff.1 (byteAt_eq s.arg0 hk ▸ h k hk)
    rw [exec_ctNew, constructType_letters hw]
    rfl
  · rw [byteAt_eq _ hk] at hb ⊢
    rw [exec_ctNew, constructType_nonLetter (fun j => getElem?_unpack s.arg0) hk
      (fun j hjk => byteAt_eq s.arg0 (hjk.trans hk) ▸ hj j hjk) hb]
    rfl

/-- Settles O25: row 0x11 of the map; range, length and bytes are checked in this order. -/
theorem ctFromStringCommand : Obligations.CtFromStringCommand := by
  refine ⟨onlyWordOf (by decide) rfl, fun s h h4 ⟨_, hty⟩ => ?_, fun s => ?_,
    fun s => exec_ctFromString_wrongLength, fun s k h h4 hk hj hb => ?_⟩
  · rw [bytesAt_eq] at hty
    rw [exec_ctFromString_four h h4, constructType_letters fun b hb => letter_iff.1 (hty b hb)]
    rfl
  · exact exec_sourceRange ⟨by simp, by simp⟩ (by simp)
  · rw [exec_ctFromString_four h h4,
      constructType_nonLetter (fun j => getElem?_readBytes s.mem s.arg0.toNat) hk hj hb]
    rfl

/-! ## The queries -/

/-- A command of NEEDS_CT that completes with `v` when CT is present (30_encoding R71, R74). -/
theorem typeQuery {i : Instr} {v : State → Word} (hop : i.opcode ≠ 0x02)
    (hmap : commandOf i.opcode = some i) (hi : i ∈ NeedsCt)
    (h : ∀ s : State, s.ctPresent = true → exec i s = .next (s.complete (v s))) :
    TypeQuery i i.opcode v :=
  ⟨onlyWordOf hop hmap, h, fun _ => exec_noType hi⟩

/-- Settles O26: row 0x12 of the map, a query with the value CT. -/
theorem ctBytesCommand : Obligations.CtBytesCommand :=
  typeQuery (by decide) rfl (by simp) fun _ => exec_ctBytes

/-- Settles O27: row 0x13 of the map, a query with the case of byte 0. -/
theorem ctIsCriticalCommand : Obligations.CtIsCriticalCommand :=
  typeQuery (by decide) rfl (by simp) fun s h => by
    rw [exec_ctIsCritical h, truthWord_isUpper s.ct (by decide)]

/-- Settles O28: row 0x14 of the map, a query with the case of byte 1. -/
theorem ctIsPublicCommand : Obligations.CtIsPublicCommand :=
  typeQuery (by decide) rfl (by simp) fun s h => by
    rw [exec_ctIsPublic h, truthWord_isUpper s.ct (by decide)]

/-- Settles O29: row 0x15 of the map, a query with the case of byte 2. -/
theorem ctIsReservedBitValidCommand : Obligations.CtIsReservedBitValidCommand :=
  typeQuery (by decide) rfl (by simp) fun s h => by
    rw [exec_ctIsReservedBitValid h, truthWord_isUpper s.ct (by decide)]

/-- Settles O30: row 0x16 of the map, a query with the case of byte 3, true for lowercase. -/
theorem ctIsSafeToCopyCommand : Obligations.CtIsSafeToCopyCommand :=
  typeQuery (by decide) rfl (by simp) fun s h => by
    rw [exec_ctIsSafeToCopy h, truthWord_isLower s.ct (by decide)]

/-- Settles O31: row 0x17 of the map, a query with the value of CT_IS_RESERVED_BIT_VALID. -/
theorem ctIsValidCommand : Obligations.CtIsValidCommand := by
  refine ⟨typeQuery (by decide) rfl (by simp) fun s h => ?_, fun s h => ?_⟩
  · rw [exec_ctIsValid h, truthWord_isUpper s.ct (by decide)]
  · rw [exec_ctIsValid h, exec_ctIsReservedBitValid h]

/-- Settles O33: row 0x19 of the map, a query with the equality of CT and ARG0. -/
theorem ctEqCommand : Obligations.CtEqCommand := by
  refine ⟨typeQuery (by decide) rfl (by simp) fun s h => ?_, fun v w => eq_iff_byteAt⟩
  rw [exec_ctEq h]
  simp only [truthWord, decide_eq_true_eq]

/-! ## The string of a type -/

/-- Settles O32: row 0x18 of the map; the bytes of CT are written at ARG2 and no other byte. -/
theorem ctToStringCommand : Obligations.CtToStringCommand := by
  refine ⟨onlyWordOf (by decide) rfl, fun s hm h hd => ?_, fun s => exec_noType (by simp),
    fun s h => exec_destRange ⟨fun _ => h, by simp⟩ (by simp)⟩
  refine ⟨_, exec_ctToString h hd, fun k hk => ?_, fun x hx => ?_⟩
  · have hread := read_writeBytes_inside hm s.arg2.toNat (bs := unpack s.ct) hk
    rw [getElem?_unpack s.ct hk, Option.some.injEq] at hread
    rw [byteAt_eq s.ct hk, hread]
  · exact Memory.read_writeBytes_outside s.mem (unpack s.ct) hx

end Sys2Proof.Machine
end

section
/-! Payload text (43_chunk_codec R108, R109): the scan, one sequence at a time, against the longest
beginning that is a concatenation of sequences of the table. -/

namespace Sys2Proof.Claims

open Sys2Proof.Machine

/-- A sequence found in the first bytes of `s` is found in `s`. -/
theorem utf8Head_of_take {s : List Byte} {i k : Nat} (h : utf8Head (s.take i) = some k) :
    utf8Head s = some k ∧ k ≤ i := by
  obtain ⟨hk, hseq⟩ := utf8Head_eq_some.1 h
  rw [List.length_take] at hk
  rw [List.take_take, min_eq_left (by omega)] at hseq
  exact ⟨utf8Head_eq_some.2 ⟨by omega, hseq⟩, by omega⟩

/-- Well-formed text at the front of `s` is empty, or it is the sequence the scan finds there with
well-formed text after it. -/
theorem wellFormedText_take_cases {s : List Byte} {i : Nat} (hi : i ≤ s.length)
    (h : WellFormedText (s.take i)) :
    i = 0 ∨ ∃ k, utf8Head s = some k ∧ k ≤ i ∧ WellFormedText ((s.drop k).take (i - k)) := by
  obtain hnil | ⟨k, hk, hrest⟩ := wellFormedText_cases h
  · left
    have := congrArg List.length hnil
    rw [List.length_take, List.length_nil] at this
    omega
  · obtain ⟨hs, hki⟩ := utf8Head_of_take hk
    rw [List.drop_take] at hrest
    exact .inr ⟨k, hs, hki, hrest⟩

/-- Bytes that begin with no sequence of the table have only the empty well-formed beginning. -/
theorem longestTextPrefix_of_noHead {s : List Byte} (h : utf8Head s = none) :
    LongestTextPrefix s 0 := by
  refine ⟨Nat.zero_le _, wellFormedText_nil, fun i hi hwf => ?_⟩
  obtain rfl | ⟨k, hk, -⟩ := wellFormedText_take_cases hi hwf
  · exact le_rfl
  · rw [h] at hk
    cases hk

/-- The longest well-formed beginning is the first sequence and that of what follows it. -/
theorem longestTextPrefix_of_head {s : List Byte} {k u : Nat} (h : utf8Head s = some k)
    (hu : LongestTextPrefix (s.drop k) u) : LongestTextPrefix s (k + u) := by
  obtain ⟨hk, hseq⟩ := utf8Head_eq_some.1 h
  obtain ⟨hlen, hwf, hmax⟩ := hu
  rw [List.length_drop] at hlen hmax
  refine ⟨by omega, ?_, fun i hi hi' => ?_⟩
  · rw [List.take_add]
    exact wellFormedText_append hseq hwf
  · obtain rfl | ⟨j, hj, hji, hrest⟩ := wellFormedText_take_cases hi hi'
    · omega
    · obtain rfl : k = j := Option.some.inj (h.symm.trans hj)
      have := hmax (i - k) (by omega) hrest
      omega

/-- With fuel for a sequence a byte the scan gives the longest well-formed beginning (43_chunk_codec
R109). -/
theorem longestTextPrefix_utf8Scan {fuel : Nat} {s : List Byte} (h : s.length ≤ fuel) :
    LongestTextPrefix s (utf8Scan fuel s) := by
  induction fuel generalizing s with
  | zero =>
    obtain rfl := List.length_eq_zero_iff.1 (Nat.le_zero.1 h)
    exact longestTextPrefix_of_noHead rfl
  | succ fuel ih =>
    rw [utf8Scan]
    cases hhead : utf8Head s with
    | none => exact longestTextPrefix_of_noHead hhead
    | some k =>
      have hpos := utf8Head_pos hhead
      exact longestTextPrefix_of_head hhead (ih (by rw [List.length_drop]; omega))

theorem longestTextPrefix_validUpTo (s : List Byte) : LongestTextPrefix s (validUpTo s) :=
  longestTextPrefix_utf8Scan le_rfl

theorem LongestTextPrefix.eq_validUpTo {s : List Byte} {u : Nat} (h : LongestTextPrefix s u) :
    u = validUpTo s := by
  obtain ⟨hlen, hwf, hmax⟩ := longestTextPrefix_validUpTo s
  obtain ⟨hlen', hwf', hmax'⟩ := h
  exact le_antisymm (hmax u hlen' hwf') (hmax' _ hlen hwf)

theorem wellFormedText_iff_validUpTo {s : List Byte} :
    WellFormedText s ↔ validUpTo s = s.length := by
  obtain ⟨hlen, hwf, hmax⟩ := longestTextPrefix_validUpTo s
  constructor
  · intro h
    exact le_antisymm hlen (hmax s.length le_rfl (by rwa [List.take_length]))
  · intro h
    rwa [h, List.take_length] at hwf

/-- Settles O44: by induction on the scan's fuel, one sequence of the table a step. -/
theorem validUpToIsLongestPrefix : Obligations.ValidUpToIsLongestPrefix := fun s =>
  ⟨longestTextPrefix_validUpTo s, wellFormedText_iff_validUpTo⟩

end Sys2Proof.Claims
end

section
/-! The commands of the chunk register (43_chunk_codec R112 to R116, R119, R120): what each answers
once its needs are met, the queries, and the three copies of bytes to ARG2. -/

namespace Sys2Proof.Machine

open Sys2Proof.Claims

/-! ## What the commands answer -/

/-- A command with a source range has no destination range and needs no chunk, so CT and the source
range are all it can need (30_encoding R74). -/
theorem ready_of_source {i : Instr} {s : State} (ht : needsType i = true → s.ctPresent = true)
    (hi : usesSource i = true) (h : SourceInMem s) : Ready i s :=
  ⟨ht, by simp [needsChunk_eq_false_of_source hi], fun _ => h,
    fun n hn => by simp [usesSource_eq_false hn] at hi⟩

/-- A command that needs a chunk reaches its own rule with the chunk present and its destination
range, if it has one, in `mem` (30_encoding R74). -/
theorem ready_of_chunk {i : Instr} {s : State} (h : s.chPresent = true) (hi : needsChunk i = true)
    (hd : ∀ n, dstLen s i = some n → DestInMem s n) : Ready i s := by
  refine ⟨by simp [needsType_eq_false hi], fun _ => h, fun hs => ?_, hd⟩
  rw [needsChunk_eq_false_of_source hs] at hi
  cases hi

theorem exec_chunkNew {s : State} (ht : s.ctPresent = true) (h : SourceInMem s)
    (hc : s.arg1.toNat ≤ s.cfg.payloadCap) :
    exec .chunkNew s = .next ((s.putChunk s.ct s.arg1 s.srcBytes).complete s.arg1) := by
  rw [exec, execChunkNew, dispatch_ready (ready_of_source (fun _ => ht) rfl h), State.srcLen,
    if_neg (not_lt.2 hc)]

theorem exec_chunkNew_capacity {s : State} (ht : s.ctPresent = true) (h : SourceInMem s)
    (hc : s.cfg.payloadCap < s.arg1.toNat) :
    exec .chunkNew s = .next (s.raiseFault 0x20 .capacity s.arg1) := by
  rw [exec, execChunkNew, dispatch_ready (ready_of_source (fun _ => ht) rfl h), State.srcLen,
    if_pos hc]
  rfl

section Present

variable {s : State} (h : s.chPresent = true)
include h

theorem exec_chunkLength : exec .chunkLength s = .next (s.complete s.chLen) :=
  congrArg Host.Outcome.next (dispatch_ready (ready_of_chunk h rfl (by simp [dstLen])) _)

theorem exec_chunkCrc :
    exec .chunkCrc s = .next (s.complete (chunkCrc (unpack s.chType) s.pl)) :=
  congrArg Host.Outcome.next (dispatch_ready (ready_of_chunk h rfl (by simp [dstLen])) _)

theorem exec_chunkType :
    exec .chunkType s = .next ((s.putType s.chType).complete s.chType) :=
  congrArg Host.Outcome.next (dispatch_ready (ready_of_chunk h rfl (by simp [dstLen])) _)

theorem exec_chunkData (hd : DestInMem s s.chLen.toNat) :
    exec .chunkData s = .next ((s.putBytes s.arg2.toNat s.pl).complete s.chLen) :=
  congrArg Host.Outcome.next
    (dispatch_ready (ready_of_chunk h rfl fun n hn => by cases hn; exact hd) _)

theorem exec_chunkSerialize (hd : DestInMem s (12 + s.chLen.toNat)) :
    exec .chunkSerialize s = .next
      ((s.putBytes s.arg2.toNat (recordBytes s.chLen (unpack s.chType) s.pl)).complete
        (BitVec.ofNat 32 (12 + s.chLen.toNat))) :=
  congrArg Host.Outcome.next
    (dispatch_ready (ready_of_chunk h rfl fun n hn => by cases hn; exact hd) _)

theorem ready_chunkDataAsText (hd : DestInMem s s.chLen.toNat) : Ready .chunkDataAsText s :=
  ready_of_chunk h rfl fun n hn => by cases hn; exact hd

theorem exec_chunkDataAsText (hd : DestInMem s s.chLen.toNat)
    (hv : s.chLen.toNat ≤ validUpTo s.pl) :
    exec .chunkDataAsText s = .next ((s.putBytes s.arg2.toNat s.pl).complete s.chLen) := by
  rw [exec, execChunkDataAsText, dispatch_ready (ready_chunkDataAsText h hd), if_neg (not_lt.2 hv)]
  rfl

theorem exec_chunkDataAsText_invalid (hd : DestInMem s s.chLen.toNat)
    (hv : validUpTo s.pl < s.chLen.toNat) :
    exec .chunkDataAsText s = .next (s.raiseError .invalidEncoding
      (BitVec.ofNat 32 (validUpTo s.pl)) ((s.pl.getD (validUpTo s.pl) 0).setWidth 32)) := by
  rw [exec, execChunkDataAsText, dispatch_ready (ready_chunkDataAsText h hd), if_pos hv]

end Present

/-! ## CHUNK_NEW and the queries -/

/-- Settles O35: row 0x20 of the map; CT, range and capacity are checked in this order. -/
theorem chunkNewCommand : Obligations.ChunkNewCommand := by
  refine ⟨onlyWordOf (by decide) rfl, fun s ht h hc => ?_, fun s => exec_noType (by simp),
    fun s ht => exec_sourceRange ⟨fun _ => ht, by simp⟩ (by simp),
    fun s => exec_chunkNew_capacity⟩
  rw [exec_chunkNew ht h hc, bytesAt_eq]
  rfl

/-- A command of NEEDS_CH that completes with `v` when a chunk is present (30_encoding R71, R74). -/
theorem chunkQuery {i : Instr} {v : State → Word} (hop : i.opcode ≠ 0x02)
    (hmap : commandOf i.opcode = some i) (hi : i ∈ NeedsCh)
    (h : ∀ s : State, s.chPresent = true → exec i s = .next (s.complete (v s))) :
    ChunkQuery i i.opcode v :=
  ⟨onlyWordOf hop hmap, h, fun _ => exec_noChunk hi⟩

/-- Settles O36: row 0x21 of the map, a query with the value CH_LEN. -/
theorem chunkLengthCommand : Obligations.ChunkLengthCommand :=
  chunkQuery (by decide) rfl (by simp) fun _ => exec_chunkLength

/-- Settles O37: row 0x22 of the map, a query with the CRC of the type's bytes and PL. -/
theorem chunkCrcCommand : Obligations.ChunkCrcCommand :=
  chunkQuery (by decide) rfl (by simp) fun s h => by
    rw [exec_chunkCrc h, bytesOf_eq, crcOf_eq, chunkCrc]

/-- Settles O43: row 0x28 of the map; CH_TYPE is loaded into CT. -/
theorem chunkTypeCommand : Obligations.ChunkTypeCommand :=
  ⟨onlyWordOf (by decide) rfl, fun _ => exec_chunkType, fun _ => exec_noChunk (by simp)⟩

/-! ## The copies to ARG2 -/

/-- Bytes written to a canonical `mem` stand there, and every other byte reads as before (20_memory
R48). -/
theorem bytesAt_writeBytes {m : Memory} {bs : List Byte} {n : Nat} (h : m.wf) (a : Nat)
    (hn : bs.length = n) :
    bytesAt (m.writeBytes a bs) a n = bs ∧ SameOutside m (m.writeBytes a bs) a n := by
  subst hn
  exact ⟨(bytesAt_eq ..).trans (Memory.readBytes_writeBytes_same h a bs),
    fun x => Memory.read_writeBytes_outside m bs⟩

/-- Settles O42: row 0x27 of the map; PL is written at ARG2 and no other byte. -/
theorem chunkDataCommand : Obligations.ChunkDataCommand := by
  refine ⟨onlyWordOf (by decide) rfl, fun s hm h hpl hd => ?_, fun s => exec_noChunk (by simp),
    fun s h => exec_destRange ⟨by simp, fun _ => h⟩ (by simp)⟩
  exact ⟨_, exec_chunkData h hd, bytesAt_writeBytes hm s.arg2.toNat hpl⟩

/-- Settles O38: row 0x23 of the map; PL of CH_LEN bytes is copied when `validUpTo` is all of it,
else `validUpTo` and the byte there are reported. -/
theorem chunkDataAsTextCommand : Obligations.ChunkDataAsTextCommand := by
  refine ⟨onlyWordOf (by decide) rfl, fun s hm h hpl hd htext => ?_,
    fun s => exec_noChunk (by simp), fun s h => exec_destRange ⟨by simp, fun _ => h⟩ (by simp),
    fun s u b h hpl hd hu hb => ?_⟩
  · have hv : validUpTo s.pl = s.chLen.toNat := (wellFormedText_iff_validUpTo.1 htext).trans hpl
    exact ⟨_, exec_chunkDataAsText h hd hv.ge, bytesAt_writeBytes hm s.arg2.toNat hpl⟩
  · obtain rfl := hu.eq_validUpTo
    obtain ⟨hlt, -⟩ := List.getElem?_eq_some_iff.1 hb
    rw [exec_chunkDataAsText_invalid h hd (hpl ▸ hlt), List.getD_eq_getElem?_getD, hb,
      BitVec.ofNat_toNat]
    rfl

/-- The record of a chunk whose PL is CH_LEN bytes is its wire layout (43_chunk_codec R105,
R106). -/
theorem recordBytes_eq_wire {len ty : Word} {data : List Byte} (h : data.length = len.toNat) :
    recordBytes len (unpack ty) data = wire (bytesOf ty) data := by
  have hlen : BitVec.ofNat 32 data.length = len := by rw [h, BitVec.ofNat_toNat, BitVec.setWidth_eq]
  rw [wire_eq (h ▸ len.isLt), serialize, hlen, bytesOf_eq]

/-- Settles O39: row 0x24 of the map; the wire layout is written at ARG2 and no other byte, and its
length fits RESULT. -/
theorem chunkSerializeCommand : Obligations.ChunkSerializeCommand := by
  refine ⟨onlyWordOf (by decide) rfl, fun s hm h hpl hcap hd => ?_,
    fun s => exec_noChunk (by simp), fun s h => exec_destRange ⟨by simp, fun _ => h⟩ (by simp)⟩
  have hlen : (wire (bytesOf s.chType) s.pl).length = 12 + s.chLen.toNat := by
    rw [length_wire rfl, hpl]
  refine ⟨_, _, exec_chunkSerialize h hd, ?_, ?_⟩
  · rw [BitVec.toNat_ofNat]
    omega
  · rw [recordBytes_eq_wire hpl]
    exact bytesAt_writeBytes hm s.arg2.toNat hlen

end Sys2Proof.Machine
end

section
/-! The parse procedure and the two parse commands (43_chunk_codec R105, R110, R111, R117, R118):
the failures they share, proved once for a command that parses, and the fields of a record. -/

namespace Sys2Proof.Machine

open Sys2Proof.Claims

/-! ## Commands that parse -/

/-- A command whose own rule reports the failures of `ParseRecord` (43_chunk_codec R117, R118), and
whose one need is its source range. -/
structure Parses (i : Instr) (streaming : Bool) : Prop where
  noType : needsType i = false
  source : usesSource i = true
  error : ∀ {s : State} {kind i0 i1}, SourceInMem s → s.parse streaming = .error kind i0 i1 →
    exec i s = .next (s.raiseError kind i0 i1)
  fault : ∀ {s : State} {code info}, SourceInMem s → s.parse streaming = .fault code info →
    exec i s = .next (s.raiseFault i.opcode code info)

theorem ready_chunkParse {s : State} (h : SourceInMem s) : Ready .chunkParse s :=
  ready_of_source nofun rfl h

theorem ready_chunkParseNext {s : State} (h : SourceInMem s) : Ready .chunkParseNext s :=
  ready_of_source nofun rfl h

theorem parses_chunkParse : Parses .chunkParse false where
  noType := rfl
  source := rfl
  error h hp := by rw [exec, execChunkParse, dispatch_ready (ready_chunkParse h), hp]
  fault h hp := by rw [exec, execChunkParse, dispatch_ready (ready_chunkParse h), hp]

theorem parses_chunkParseNext : Parses .chunkParseNext true where
  noType := rfl
  source := rfl
  error h hp := by rw [exec, execChunkParseNext, dispatch_ready (ready_chunkParseNext h), hp]
  fault h hp := by rw [exec, execChunkParseNext, dispatch_ready (ready_chunkParseNext h), hp]

/-! ## The failures -/

theorem recomputedCrc_eq (s : State) : recomputedCrc s =
    chunkCrc (s.mem.readBytes (s.srcAddr + 4) 4)
      (s.mem.readBytes (s.srcAddr + 8) (be32 (s.mem.readBytes s.srcAddr 4)).toNat) := by
  rw [recomputedCrc, crcOf_eq, typeBytes, payloadBytes, declaredLen, bytesAt_eq, bytesAt_eq,
    wordAt_eq]
  rfl

theorem storedCrc_eq (s : State) : storedCrc s =
    be32 (s.mem.readBytes (s.srcAddr + 8 + (be32 (s.mem.readBytes s.srcAddr 4)).toNat) 4) := by
  rw [storedCrc, declaredLen, wordAt_eq, wordAt_eq]
  rfl

theorem validate_typeBytes {s : State} (h : TypeBytes (typeBytes s)) :
    validate (s.mem.readBytes (s.srcAddr + 4) 4) = none := by
  obtain ⟨-, hletters⟩ := h
  rw [typeBytes, bytesAt_eq] at hletters
  exact validate_eq_none.2 fun b hb => letter_iff.1 (hletters b hb)

/-- The first type byte that is no letter is reported (42_chunk_type R90). -/
theorem validate_nonLetter {m : Memory} {a k : Nat} (hk : k < 4)
    (hj : ∀ j, j < k → Letter (m.read (a + j)).toNat) (hb : ¬ Letter (m.read (a + k)).toNat) :
    validate (m.readBytes a 4) = some (k, m.read (a + k)) := by
  refine validate_eq_some (getElem?_readBytes m a hk) (mt letter_iff.2 hb) fun j hjk c hc => ?_
  rw [getElem?_readBytes m a (hjk.trans hk), Option.some.injEq] at hc
  exact hc ▸ letter_iff.1 (hj j hjk)

/-- The failures of 43_chunk_codec R111, in order, of any command that parses. -/
theorem parseFailures {i : Instr} {streaming : Bool} (hi : Parses i streaming) :
    ParseFailures i i.opcode (if streaming then .lengthExceedsBuffer else .lengthMismatch) := by
  refine ⟨fun s h => ?range, fun s h hn => ?tooShort, fun s k h hn hk hj hb => ?letter,
    fun s h hn hty hl => ?tooLong, fun s h hty hl hc => ?capacity,
    fun s h hty hl hc hcrc => ?crc⟩
  case range =>
    have hchunk := needsChunk_eq_false_of_source hi.source
    exact exec_sourceRange ⟨fun ht => absurd (mem_needsCt.1 ht) (by simp [hi.noType]),
      fun hc => absurd (mem_needsCh.1 hc) (by simp [hchunk])⟩ (mem_srcOps.2 hi.source) h
  case tooShort =>
    have hp := parseRecord_tooShort (m := s.mem) (cap := s.cfg.payloadCap) (a := s.srcAddr)
      (streaming := streaming) hn
    rw [BitVec.ofNat_toNat, BitVec.setWidth_eq] at hp
    exact hi.error h hp
  case letter =>
    rw [BitVec.ofNat_toNat]
    exact hi.error h (parseRecord_invalidCharacter hn (validate_nonLetter hk hj hb))
  case tooLong =>
    have hsub : BitVec.ofNat 32 (s.srcLen - 12) = s.arg1 - 12 := by
      rw [State.srcLen]
      bv_omega
    rw [wordAt_eq, ← hsub]
    rw [declaredLen, wordAt_eq] at hl
    exact hi.error h (parseRecord_tooLong hn (validate_typeBytes hty) hl)
  case capacity =>
    rw [declaredLen, wordAt_eq] at hl hc
    rw [wordAt_eq]
    exact hi.fault h (parseRecord_capacity (validate_typeBytes hty) hl hc)
  case crc =>
    rw [declaredLen, wordAt_eq] at hl hc
    rw [recomputedCrc_eq, storedCrc_eq] at hcrc ⊢
    exact hi.error h (parseRecord_crcMismatch (validate_typeBytes hty) hl hc hcrc)

/-! ## The fields of a record -/

/-- A record read from `mem`, field by field (43_chunk_codec R105). -/
theorem readBytes_eq_recordBytes {m : Memory} {a : Nat} {len : Word} {ty data : List Byte}
    (hty : ty.length = 4) (h : m.readBytes a (12 + data.length) = recordBytes len ty data) :
    m.readBytes a 4 = toBe32 len ∧ m.readBytes (a + 4) 4 = ty ∧
      m.readBytes (a + 8) data.length = data ∧
      m.readBytes (a + 8 + data.length) 4 = toBe32 (chunkCrc ty data) := by
  rw [show 12 + data.length = 4 + 4 + data.length + 4 by omega, Memory.readBytes_add,
    Memory.readBytes_add, Memory.readBytes_add,
    show a + (4 + 4 + data.length) = a + 8 + data.length by omega, recordBytes] at h
  obtain ⟨h, hcrc⟩ := List.append_inj' h (by simp)
  obtain ⟨h, hdata⟩ := List.append_inj' h (by simp)
  obtain ⟨hlen, htype⟩ := List.append_inj' h (by simp [hty])
  exact ⟨hlen, htype, hdata, hcrc⟩

section Record

variable {s : State} {ty data : List Byte} (h : RecordAtSource s ty data)
include h

/-- The payload of a record in a source range has a length that fits a register. -/
theorem toNat_length_of_record : (BitVec.ofNat 32 data.length).toNat = data.length := by
  obtain ⟨-, -, -, hlen, -⟩ := h
  rw [BitVec.toNat_ofNat]
  have := s.arg1.isLt
  omega

/-- The fields of the record at ARG0, as the machine reads them. -/
theorem readBytes_of_record :
    be32 (s.mem.readBytes s.srcAddr 4) = BitVec.ofNat 32 data.length ∧
      s.mem.readBytes (s.srcAddr + 4) 4 = ty ∧
      s.mem.readBytes (s.srcAddr + 8) data.length = data ∧
      be32 (s.mem.readBytes (s.srcAddr + 8 + data.length) 4) = chunkCrc ty data := by
  obtain ⟨-, ⟨hty, -⟩, -, hlen, hbytes⟩ := h
  have := s.arg1.isLt
  rw [bytesAt_eq, wire_eq (by omega)] at hbytes
  obtain ⟨hlen, htype, hdata, hcrc⟩ := readBytes_eq_recordBytes hty hbytes
  exact ⟨(congrArg be32 hlen).trans (be32_toBe32 _), htype, hdata,
    (congrArg be32 hcrc).trans (be32_toBe32 _)⟩

theorem parse_record (streaming : Bool) :
    s.parse streaming = .accept ty (BitVec.ofNat 32 data.length) data := by
  have hfit := toNat_length_of_record h
  obtain ⟨hlen, htype, hdata, hcrc⟩ := readBytes_of_record h
  obtain ⟨-, ⟨-, hletters⟩, hcap, hn, -⟩ := h
  refine parseRecord_eq_accept.2 ?_
  rw [hfit]
  exact ⟨hn, hcap, hlen.symm, htype.symm, fun b hb => letter_iff.1 (hletters b hb), hdata.symm,
    hcrc.symm⟩

end Record

/-! ## The two commands -/

/-- Settles O40: row 0x25 of the map; `ParseRecord` accepts the record, and the command then checks
that nothing is left. -/
theorem chunkParseCommand : Obligations.ChunkParseCommand := by
  refine ⟨onlyWordOf (by decide) rfl, fun s ty data h hn => ?_, parseFailures parses_chunkParse,
    fun s ty data h hn => ?_⟩
  · obtain ⟨hsrc, ⟨hty, -⟩, -⟩ := id h
    rw [exec, execChunkParse, dispatch_ready (ready_chunkParse hsrc), parse_record h, packed_eq hty]
    dsimp only
    rw [toNat_length_of_record h, State.srcLen, if_neg (by omega)]
    rfl
  · obtain ⟨hsrc, -⟩ := id h
    rw [exec, execChunkParse, dispatch_ready (ready_chunkParse hsrc), parse_record h]
    dsimp only
    rw [toNat_length_of_record h, State.srcLen, if_pos hn]
    rfl

/-- MEM_SIZE of legal parameters fits a register (00_scope R10). -/
theorem memSize_lt_of_wf {c : Config} (h : c.wf = true) : c.memSize < 2 ^ 32 := by
  simp only [Config.wf, Config.memSizeOk, Bool.and_eq_true, decide_eq_true_eq] at h
  omega

/-- Settles O41: row 0x26 of the map; `ParseRecord` accepts the record, and the remainder's address
and length fit their registers because the buffer lies in `mem`. -/
theorem chunkParseNextCommand : Obligations.ChunkParseNextCommand := by
  refine ⟨onlyWordOf (by decide) rfl, fun s ty data hcfg h => ?_,
    parseFailures parses_chunkParseNext⟩
  obtain ⟨hsrc, ⟨hty, -⟩, -, hn, -⟩ := id h
  refine ⟨BitVec.ofNat 32 (s.arg0.toNat + 12 + data.length),
    BitVec.ofNat 32 (s.arg1.toNat - (12 + data.length)), BitVec.ofNat 32 (12 + data.length),
    ?_, ?_, ?_, ?_⟩
  · rw [exec, execChunkParseNext, dispatch_ready (ready_chunkParseNext hsrc), parse_record h,
      packed_eq hty]
    dsimp only
    rw [toNat_length_of_record h]
    rfl
  all_goals
    have := memSize_lt_of_wf hcfg
    simp only [SourceInMem] at hsrc
    rw [BitVec.toNat_ofNat]
    omega

end Sys2Proof.Machine
end

section
/-! Records end to end (43_chunk_codec R104, R111, R118, R122, R123): a chunk serialized and parsed
back, a record with one byte changed, and two records back to back. -/

namespace Sys2Proof.Machine

open Sys2Proof.Claims

/-! ## Serialize and parse back -/

/-- Letters packed in a register are four type bytes (42_chunk_type R90). -/
theorem typeBytes_bytesOf {w : Word} (h : LettersOnly w) : TypeBytes (bytesOf w) := by
  rw [bytesOf_eq]
  exact ⟨rfl, fun b hb => letter_iff.2 (h b hb)⟩

theorem packed_bytesOf (w : Word) : packed (bytesOf w) = w := by
  rw [packed_eq rfl, bytesOf_eq, pack_unpack]

/-- Settles O45: CHUNK_NEW and CHUNK_SERIALIZE leave a record at `d`, and both parse commands accept
a buffer that is exactly a record. -/
theorem serializeParseRoundTrip : Obligations.SerializeParseRoundTrip := by
  rintro s d ⟨hcfg, ⟨hwf, -⟩, htype, -⟩ hct hsrc hcap hd
  obtain ⟨-, hnew, -⟩ := chunkNewCommand
  obtain ⟨-, hser, -⟩ := chunkSerializeCommand
  obtain ⟨-, hparse, -⟩ := chunkParseCommand
  obtain ⟨-, hnext, -⟩ := chunkParseNextCommand
  have hmem := memSize_lt_of_wf hcfg
  have hsum : (12 + s.arg1 : Word).toNat = 12 + s.arg1.toNat := by bv_omega
  let data := bytesAt s.mem s.arg0.toNat s.arg1.toNat
  have hdata : data.length = s.arg1.toNat :=
    (congrArg List.length (bytesAt_eq ..)).trans (Memory.length_readBytes ..)
  let t : State := (s.putChunk s.ct s.arg1 data).complete s.arg1
  have ht : exec .chunkNew s = .next t := hnew s hct hsrc hcap
  obtain ⟨m, r, hu, -, hbytes, -⟩ := hser { t with arg2 := d } hwf rfl hdata
    (show data.length ≤ _ by omega) (show d.toNat + (12 + s.arg1.toNat) ≤ s.cfg.memSize by omega)
  let u : State := ended r { t with arg2 := d, mem := m }
  have hrecord : RecordAtSource { u with arg0 := d, arg1 := 12 + s.arg1 } (bytesOf s.ct) data := by
    refine ⟨?_, typeBytes_bytesOf (htype hct), hdata.le.trans hcap, ?_, ?_⟩
    · change d.toNat + (12 + s.arg1 : Word).toNat ≤ s.cfg.memSize
      omega
    · rw [hdata, hsum]
    · rw [hdata]
      exact hbytes
  have hv := hparse _ _ _ hrecord (by rw [hdata, hsum])
  obtain ⟨a, n, r', hx, -, hn, hr'⟩ := hnext _ _ _ (by exact hcfg) hrecord
  rw [hdata] at hr'
  rw [hdata, hsum, Nat.sub_self] at hn
  have hlen : BitVec.ofNat 32 data.length = s.arg1 := by
    rw [hdata, BitVec.ofNat_toNat, BitVec.setWidth_eq]
  exact ⟨t, u, _, _, ht, hu, hbytes, hv, rfl, rfl, hsum, rfl, packed_bytesOf s.ct, hlen, rfl,
    hx, rfl, rfl, hr', rfl, packed_bytesOf s.ct, hlen, rfl, BitVec.eq_of_toNat_eq hn⟩

/-! ## One changed byte -/

/-- A write outside a range does not change what is read from it. -/
theorem readBytes_write_outside (m : Memory) (v : Byte) {x a n : Nat} (h : a + n ≤ x ∨ x < a) :
    (m.write x v).readBytes a n = m.readBytes a n :=
  Memory.readBytes_writeBytes_disjoint m [v] h

/-- A range of `mem` around one of its bytes. -/
theorem readBytes_split (m : Memory) {a n x : Nat} (hx : a ≤ x) (hx' : x < a + n) :
    m.readBytes a n =
      m.readBytes a (x - a) ++ m.read x :: m.readBytes (x + 1) (a + n - (x + 1)) := by
  rw [← Memory.readBytes_succ, show n = (x - a) + (a + n - (x + 1) + 1) by omega,
    Memory.readBytes_add, show a + (x - a) = x by omega]
  congr 2
  omega

/-- A range of a canonical `mem` after a write to one of its bytes. -/
theorem readBytes_write_inside {m : Memory} (h : m.wf) (v : Byte) {a n x : Nat} (hx : a ≤ x)
    (hx' : x < a + n) : (m.write x v).readBytes a n =
      m.readBytes a (x - a) ++ v :: m.readBytes (x + 1) (a + n - (x + 1)) := by
  rw [readBytes_split _ hx hx', Memory.read_write_same h, readBytes_write_outside m v (by omega),
    readBytes_write_outside m v (by omega)]

/-- Different 4-byte fields are different words (20_memory R49). -/
theorem be32_inj {l l' : List Byte} (hl : l.length = 4) (hl' : l'.length = 4)
    (h : be32 l = be32 l') : l = l' := by
  rw [← unpack_pack hl, ← unpack_pack hl', pack, pack, h]

/-- With a changed byte in the payload the recomputed CRC differs, with one in the CRC field the
stored one (43_chunk_codec R123). -/
theorem chunkCrc_ne_stored_of_write {m : Memory} {a n x : Nat} {v : Byte} {ty : List Byte}
    (hm : m.wf) (hv : v ≠ m.read x) (hx : a ≤ x) (hx' : x < a + n + 4)
    (h : be32 (m.readBytes (a + n) 4) = chunkCrc ty (m.readBytes a n)) :
    chunkCrc ty ((m.write x v).readBytes a n) ≠ be32 ((m.write x v).readBytes (a + n) 4) := by
  by_cases hpayload : x < a + n
  · rw [readBytes_write_outside m v (a := a + n) (by omega), h,
      readBytes_write_inside hm v hx hpayload, readBytes_split m hx hpayload, chunkCrc, chunkCrc,
      ← List.append_assoc, ← List.append_assoc]
    exact crc32_one_byte_ne _ _ hv
  · have hfield : a + n ≤ x := not_lt.1 hpayload
    rw [readBytes_write_outside m v (by omega), ← h]
    intro he
    have he := be32_inj (by simp) (by simp) he
    rw [readBytes_write_inside hm v hfield hx', readBytes_split m hfield hx'] at he
    exact hv (List.cons.inj (List.append_cancel_left he)).1.symm

/-- A CrcMismatch, from the length and the type that were read (43_chunk_codec R110). -/
theorem parseRecord_crcMismatch_of_header {m : Memory} {cap a n : Nat} {streaming : Bool}
    {len : Word} {ty : List Byte} (hlen : be32 (m.readBytes a 4) = len)
    (hty : m.readBytes (a + 4) 4 = ty) (hletters : ∀ b ∈ ty, isLetter b = true)
    (hn : 12 + len.toNat ≤ n) (hcap : len.toNat ≤ cap)
    (hcrc : chunkCrc ty (m.readBytes (a + 8) len.toNat) ≠
      be32 (m.readBytes (a + 8 + len.toNat) 4)) :
    parseRecord m cap a n streaming = .error .crcMismatch
      (chunkCrc ty (m.readBytes (a + 8) len.toNat))
      (be32 (m.readBytes (a + 8 + len.toNat) 4)) := by
  subst hlen hty
  exact parseRecord_crcMismatch (validate_eq_none.2 hletters) hn hcap hcrc

/-- A valid record with one byte of its payload or CRC field changed is a CrcMismatch. -/
theorem exec_chunkParse_changedByte {s : State} {ty data : List Byte} {x : Nat} {v : Byte}
    (hm : s.mem.wf) (h : RecordAtSource s ty data) (hx : s.srcAddr + 8 ≤ x)
    (hx' : x < s.srcAddr + 12 + data.length) (hv : v ≠ s.mem.read x) :
    ∃ i0 i1 : Word, i0 ≠ i1 ∧ exec .chunkParse { s with mem := s.mem.write x v } =
      .next (errored .crcMismatch i0 i1 { s with mem := s.mem.write x v }) := by
  have hfit := toNat_length_of_record h
  obtain ⟨hlen, htype, hdata, hcrc⟩ := readBytes_of_record h
  obtain ⟨hsrc, ⟨-, hletters⟩, hcap, hn, -⟩ := h
  have hlen' : be32 ((s.mem.write x v).readBytes s.srcAddr 4) = BitVec.ofNat 32 data.length := by
    rw [readBytes_write_outside s.mem v (by omega), hlen]
  have htype' : (s.mem.write x v).readBytes (s.srcAddr + 4) 4 = ty := by
    rw [readBytes_write_outside s.mem v (by omega), htype]
  have hne := chunkCrc_ne_stored_of_write hm hv hx (n := data.length) (ty := ty) (by omega)
    (hcrc.trans (congrArg _ hdata.symm))
  have hmismatch := parseRecord_crcMismatch_of_header (cap := s.cfg.payloadCap) (n := s.srcLen)
    (streaming := false) hlen' htype' fun b hb => letter_iff.1 (hletters b hb)
  rw [hfit] at hmismatch
  exact ⟨_, _, hne, parses_chunkParse.error (s := { s with mem := s.mem.write x v }) hsrc
    (hmismatch hn hcap hne)⟩

/-- A byte with one bit flipped is another byte. -/
theorem xor_bit_ne (b : Byte) {k : Nat} (hk : k < 8) : b ^^^ BitVec.ofNat 8 (2 ^ k) ≠ b := by
  intro h
  have h0 : BitVec.ofNat 8 (2 ^ k) = 0 := by
    simpa using congrArg (b ^^^ ·) h
  have hlt : 2 ^ k < 2 ^ 8 := Nat.pow_lt_pow_right (by decide) hk
  have := congrArg BitVec.toNat h0
  rw [BitVec.toNat_ofNat, Nat.mod_eq_of_lt hlt] at this
  exact absurd this (Nat.two_pow_pos k).ne'

/-- Settles O46: a flipped bit is a changed byte. -/
theorem singleBitTamperDetected : Obligations.SingleBitTamperDetected :=
  fun s _ _ x _ hm h _ hk hx hx' =>
    exec_chunkParse_changedByte hm h hx hx' (xor_bit_ne (s.mem.read x) hk)

/-! ## Two records back to back -/

/-- Settles O47: the first record is at ARG0, and after it CHUNK_PARSE_NEXT leaves the second there,
with nothing behind it. -/
theorem streamOfTwoRecords : Obligations.StreamOfTwoRecords := by
  intro s ty₁ data₁ ty₂ data₂ hcfg hsrc hty₁ hty₂ hcap₁ hcap₂ hlen hbytes
  obtain ⟨-, hnext, -⟩ := chunkParseNextCommand
  obtain ⟨-, -, -, htrailing⟩ := chunkParseCommand
  rw [hlen, bytesAt_eq, Memory.readBytes_add] at hbytes
  obtain ⟨hfirst, hsecond⟩ := List.append_inj hbytes
    ((Memory.length_readBytes ..).trans (length_wire hty₁.1 data₁).symm)
  rw [← bytesAt_eq] at hfirst hsecond
  have hrecord₁ : RecordAtSource s ty₁ data₁ := ⟨hsrc, hty₁, hcap₁, by omega, hfirst⟩
  obtain ⟨a, n, v, ht, ha, hn, -⟩ := hnext s ty₁ data₁ hcfg hrecord₁
  let t : State :=
    ended v ((s.putChunk (packed ty₁) (BitVec.ofNat 32 data₁.length) data₁).putRemainder a n)
  have hrecord₂ : RecordAtSource t ty₂ data₂ := by
    refine ⟨?_, hty₂, hcap₂, show _ ≤ n.toNat by omega, ?_⟩
    · change a.toNat + n.toNat ≤ s.cfg.memSize
      simp only [SourceInMem] at hsrc
      omega
    · change bytesAt s.mem a.toNat (12 + data₂.length) = _
      rw [ha, Nat.add_assoc]
      exact hsecond
  obtain ⟨a', n', v', hu, ha', hn', -⟩ := hnext t ty₂ data₂ hcfg hrecord₂
  change a'.toNat = a.toNat + 12 + data₂.length at ha'
  change n'.toNat = n.toNat - (12 + data₂.length) at hn'
  have hrest := htrailing s ty₁ data₁ hrecord₁ (by omega)
  rw [show s.arg1.toNat - 12 - data₁.length = 12 + data₂.length by omega] at hrest
  refine ⟨t, _, ht, hu, rfl, rfl, rfl, show n.toNat = _ by omega, rfl, rfl, rfl,
    BitVec.eq_of_toNat_eq ?_, show a'.toNat = _ by omega, hrest⟩
  change n'.toNat = 0
  omega

end Sys2Proof.Machine
end

section
/-! Failure (60_exceptions R125, R127, R129, R130): a command that fails writes the registers of its
failure only, and a recorded fault stays as it is until reset. -/

namespace Sys2Proof.Machine

open Sys2Proof.Claims

/-! ## A recorded fault -/

/-- The three fault registers are as before. -/
def SameFault (s t : State) : Prop :=
  t.faultCode = s.faultCode ∧ t.faultOpcode = s.faultOpcode ∧ t.faultInfo = s.faultInfo

theorem SameFault.refl (s : State) : SameFault s s := ⟨rfl, rfl, rfl⟩

/-- A CMD write runs a command or raises ILLEGAL_COMMAND only with no fault recorded. -/
theorem CommandStep.eq_of_faulted {s t : State} (h : CommandStep s t) (hs : s.faultCode ≠ none) :
    t = s := by
  cases h with
  | ignored _ => rfl
  | ran w i t hf _ _ => exact absurd hf hs
  | illegal w hf => exact absurd hf hs

/-- The CMD write is the one action other than reset that can write the fault registers. -/
theorem ActionStep.sameFault_of_faulted {s t : State} (h : ActionStep s t)
    (hs : s.faultCode ≠ none) : SameFault s t := by
  cases h with
  | command h => exact h.eq_of_faulted hs ▸ .refl s
  | args a b c => exact .refl s
  | reply r => exact .refl s
  | mark => exact .refl s
  | memory a b _ => exact .refl s
  | same => exact .refl s

theorem step_sameFault_of_faulted {s t : State} (h : step s = .next t) (hs : s.faultCode ≠ none)
    (hr : s.pending.head? ≠ some .assertReset) : SameFault s t := by
  obtain rfl | ⟨rest, hp, -⟩ | ⟨rest, ha⟩ := step_cases h
  · exact .refl t
  · exact absurd (by simp [hp]) hr
  · exact ha.sameFault_of_faulted (s := { s with pending := rest }) hs

/-- Settles O5: the fault check of a CMD write, the register window, and reset, one clause each. -/
theorem faultIsStickyUntilReset : Obligations.FaultIsStickyUntilReset := by
  intro s hm hs
  refine ⟨fun w rest hp => step_command_ignored ⟨hm, hp⟩ hs,
    fun v rest hp => step_regWrite (off := 0x04) ⟨hm, hp⟩ (by decide) (by decide),
    fun v rest hp => step_regWrite (off := 0x08) ⟨hm, hp⟩ (by decide) (by decide),
    fun v rest hp => step_regWrite (off := 0x0C) ⟨hm, hp⟩ (by decide) (by decide),
    fun off rest ha hw hp => step_regRead ⟨hm, hp⟩ ha hw,
    fun t ht hr => step_sameFault_of_faulted ht hs hr,
    fun rest hp => ⟨_, step_takeAction hm hp, rfl, rfl, rfl⟩⟩

/-! ## A command that fails -/

/-- Settles O50: of the ends of a command `raiseFault` alone records a fault and `raiseError` alone an
error, and each writes its own registers only. -/
theorem failureIsAtomic : Obligations.FailureIsAtomic := by
  intro i s t hs h
  cases ends_of_exec h with
  | fault code info => exact ⟨fun _ => rfl, nofun⟩
  | error kind i0 i1 => exact ⟨absurd hs, fun _ _ => rfl⟩
  | success v hw =>
    obtain ⟨hcode, -, -⟩ := hw.keeps_fault
    exact ⟨absurd (hcode.trans hs), fun _ he => absurd rfl he⟩

end Sys2Proof.Machine
end

section
/-! Reset (70_reset_and_hazards R141, R142): the table of register values, the command that follows
it, and the CRC Engine right after it. -/

namespace Sys2Proof.Machine

open Sys2Proof.Claims

/-! ## The table, and the command after it -/

/-- STATUS is a view of ERR, FAULT_CODE and the presence flags, whatever the instance and `mem`
(10_state R29). -/
theorem State.status_resetWith (c : Config) (m : Memory) : (State.resetWith c m).status = 0 :=
  show State.reset.status = 0 by decide

/-- FAULT is a view of FAULT_CODE and FAULT_OPCODE, whatever the instance and `mem`
(10_state R31). -/
theorem State.faultWord_resetWith (c : Config) (m : Memory) : (State.resetWith c m).faultWord = 0 :=
  show State.reset.faultWord = 0 by decide

/-- The registers that are stored have the values `resetWith` lists, and the reserved offsets read
0. -/
theorem State.resetTable_resetWith (c : Config) (m : Memory) : ResetTable (State.resetWith c m) :=
  ⟨rfl, rfl, rfl, rfl, rfl, rfl, rfl, rfl, rfl, rfl, rfl, rfl, rfl, rfl, rfl, rfl, rfl,
    State.status_resetWith c m, State.faultWord_resetWith c m, rfl, rfl⟩

/-- The host's side and the mark, which reset leaves, are no part of the table. -/
theorem State.resetTable_engineReset (s : State) : ResetTable s.engineReset :=
  State.resetTable_resetWith s.cfg s.mem

/-- With no fault recorded a CMD write of any word, legal or not, is accepted: CMD takes the word
(10_state R26). -/
theorem commandWrite_accepts (w : Word) {s : State} (hf : s.faultCode = none) :
    ∃ t, s.commandWrite w = .next t ∧ t.cmd = w := by
  obtain ⟨hn, -⟩ | ⟨-, i, -, he⟩ | ⟨-, -, he⟩ := commandWrite_cases w s
  · exact absurd hf hn
  · obtain ⟨t, ht, -⟩ := exec_cases i { s with cmd := w }
    obtain ⟨hcmd, -⟩ := registerFrame i _ t ht
    exact ⟨t, he.trans ht, hcmd⟩
  · exact ⟨_, he, rfl⟩

/-- The step at a CMD write, with no fault recorded. -/
theorem step_command_accepts {s : State} {w : Word} {rest : List HostAction}
    (h : NextAction s (.regWrite .word 0x00 w) rest) (hf : s.faultCode = none) :
    ∃ t, step s = .next t ∧ t.cmd = w := by
  rw [step_regWrite h (by decide) (by decide)]
  exact commandWrite_accepts w hf

/-- Settles O11: the step at a reset is `engineReset`, whose state has the table's values and no
fault, so that it accepts the CMD write. -/
theorem resetSetsEveryRegister : Obligations.ResetSetsEveryRegister := by
  refine ⟨fun s rest ⟨hm, hp⟩ => ?_, State.resetTable_resetWith _ _,
    fun c m => ⟨State.resetTable_resetWith c m, rfl, rfl⟩⟩
  exact ⟨_, step_takeAction hm hp, State.resetTable_engineReset _, rfl, rfl, rfl, rfl,
    fun w more hw => step_command_accepts ⟨hm, hw⟩ (State.engineReset_faultCode _)⟩

/-! ## The CRC Engine right after reset -/

/-- CRC_ACC already holds the value CRC_INIT writes. -/
theorem State.putCrcAcc_resetWith (c : Config) (m : Memory) :
    (State.resetWith c m).putCrcAcc 0xFFFFFFFF = State.resetWith c m := rfl

/-- RESULT and the error registers already hold what a completion with the value 0 writes. -/
theorem State.complete_resetWith (c : Config) (m : Memory) :
    (State.resetWith c m).complete 0 = State.resetWith c m := rfl

/-- The CRC of the empty sequence is the complement of the initial accumulator (41_crc R81). -/
theorem crcOf_nil : crcOf [] = 0 := by decide

/-- Settles O12: CRC_INIT writes CRC_ACC and completes with 0, CRC_GET completes with the CRC of the
empty sequence, and none of these writes changes the reset state. -/
theorem freshCrcAfterReset : Obligations.FreshCrcAfterReset := by
  intro c m
  refine ⟨rfl, ?_, ?_, rfl, crcOf_nil⟩
  · rw [exec_crcInit, State.putCrcAcc_resetWith, State.complete_resetWith]
  · have hacc : ~~~ (State.resetWith c m).crcAcc = 0 := crcOf_nil
    rw [exec_crcGet, hacc, State.complete_resetWith]

end Sys2Proof.Machine
end
